-- ==== Sys2Proof/Word.lean ====
section
/-! DEFINITION. The value widths of CHIP-8/LTC8 (rules R8, R11). Every value is an unsigned bit vector of a stated
width; nothing is ever read as signed. -/

namespace Sys2Proof

/-- A register, a timer or a memory byte: 8 bits (R8). -/
abbrev Byte := BitVec 8

/-- The index register, the program counter, a stack entry or an instruction word: 16 bits (R8). -/
abbrev Word := BitVec 16

/-- A 4-bit field of an instruction word (R16, R81): a register index, a row count or a class. -/
abbrev Nibble := BitVec 4

/-- The 12-bit address field `nnn` of an instruction word (R81). -/
abbrev Addr := BitVec 12

theorem Nibble.toNat_lt_16 (x : Nibble) : x.toNat < 16 := x.isLt

theorem Byte.toNat_lt_256 (b : Byte) : b.toNat < 256 := b.isLt

end Sys2Proof
end

