-- ==== Sys2Proof/Syntax.lean ====
section
/-! DEFINITION. The instructions: one constructor for each of the 33 rows of the opcode map (rule R88), in the map's
order, with the fields of the word as arguments (rule R81).

A field that an instruction does not use (`x` of 00E0 and 00EE, R84; `n` of 5xyn and 9xyn, R85; `y` of 8xy6 and 8xyE,
R86) is an argument all the same: the words that differ in it all decode, and a condition report holds the whole word
(R302), so the word must be recoverable from the instruction (log entry 4). -/

namespace Sys2Proof

inductive Instr where
  /-- `CLS`, 0x?E0 (R230); `x` is ignored. -/
  | cls (x : Nibble)
  /-- `RET`, 0x?EE (R121); `x` is ignored. -/
  | ret (x : Nibble)
  /-- `JP nnn`, 1nnn (R123). -/
  | jp (nnn : Addr)
  /-- `CALL nnn`, 2nnn (R122). -/
  | call (nnn : Addr)
  /-- `SE Vx, nn`, 3xnn (R141). -/
  | seImm (x : Nibble) (nn : Byte)
  /-- `SNE Vx, nn`, 4xnn (R142). -/
  | sneImm (x : Nibble) (nn : Byte)
  /-- `SE Vx, Vy`, 5xyn (R143); `n` is ignored. -/
  | seReg (x y n : Nibble)
  /-- `LD Vx, nn`, 6xnn (R160). -/
  | ldImm (x : Nibble) (nn : Byte)
  /-- `ADD Vx, nn`, 7xnn (R161). -/
  | addImm (x : Nibble) (nn : Byte)
  /-- `LD Vx, Vy`, 8xy0 (R163). -/
  | ldReg (x y : Nibble)
  /-- `OR Vx, Vy`, 8xy1 (R164). -/
  | or (x y : Nibble)
  /-- `AND Vx, Vy`, 8xy2 (R165). -/
  | and (x y : Nibble)
  /-- `XOR Vx, Vy`, 8xy3 (R166). -/
  | xor (x y : Nibble)
  /-- `ADD Vx, Vy`, 8xy4 (R168). -/
  | addReg (x y : Nibble)
  /-- `SUB Vx, Vy`, 8xy5 (R170). -/
  | sub (x y : Nibble)
  /-- `SHR Vx`, 8xy6 (R172); `y` is ignored. -/
  | shr (x y : Nibble)
  /-- `SUBN Vx, Vy`, 8xy7 (R171). -/
  | subn (x y : Nibble)
  /-- `SHL Vx`, 8xyE (R174); `y` is ignored. -/
  | shl (x y : Nibble)
  /-- `SNE Vx, Vy`, 9xyn (R144); `n` is ignored. -/
  | sneReg (x y n : Nibble)
  /-- `LD I, nnn`, Annn (R200). -/
  | ldI (nnn : Addr)
  /-- `RND Vx, nn`, Cxnn (R176). -/
  | rnd (x : Nibble) (nn : Byte)
  /-- `DRW Vx, Vy, n`, Dxyn (R232). -/
  | drw (x y n : Nibble)
  /-- `SKP Vx`, Ex9E (R145). -/
  | skp (x : Nibble)
  /-- `SKNP Vx`, ExA1 (R146). -/
  | sknp (x : Nibble)
  /-- `LD Vx, DT`, Fx07 (R250). -/
  | ldVxDt (x : Nibble)
  /-- `LD DT, Vx`, Fx15 (R251). -/
  | ldDtVx (x : Nibble)
  /-- `LD ST, Vx`, Fx18 (R252). -/
  | ldStVx (x : Nibble)
  /-- `LD Vx, K`, Fx0A (R254). -/
  | ldVxK (x : Nibble)
  /-- `ADD I, Vx`, Fx1E (R201). -/
  | addIVx (x : Nibble)
  /-- `LD F, Vx`, Fx29 (R202). -/
  | ldFVx (x : Nibble)
  /-- `LD B, Vx`, Fx33 (R203). -/
  | ldBVx (x : Nibble)
  /-- `LD [I], Vx`, Fx55 (R205). -/
  | ldMemVx (x : Nibble)
  /-- `LD Vx, [I]`, Fx65 (R206). -/
  | ldVxMem (x : Nibble)
deriving DecidableEq, Repr

/-- The number of an instruction's row in the opcode map (R88, column `#`). -/
def Instr.row : Instr → Nat
  | .cls _ => 1
  | .ret _ => 2
  | .jp _ => 3
  | .call _ => 4
  | .seImm _ _ => 5
  | .sneImm _ _ => 6
  | .seReg _ _ _ => 7
  | .ldImm _ _ => 8
  | .addImm _ _ => 9
  | .ldReg _ _ => 10
  | .or _ _ => 11
  | .and _ _ => 12
  | .xor _ _ => 13
  | .addReg _ _ => 14
  | .sub _ _ => 15
  | .shr _ _ => 16
  | .subn _ _ => 17
  | .shl _ _ => 18
  | .sneReg _ _ _ => 19
  | .ldI _ => 20
  | .rnd _ _ => 21
  | .drw _ _ _ => 22
  | .skp _ => 23
  | .sknp _ => 24
  | .ldVxDt _ => 25
  | .ldDtVx _ => 26
  | .ldStVx _ => 27
  | .ldVxK _ => 28
  | .addIVx _ => 29
  | .ldFVx _ => 30
  | .ldBVx _ => 31
  | .ldMemVx _ => 32
  | .ldVxMem _ => 33

end Sys2Proof
end

