-- ==== Sys2Proof/Decode.lean ====
section
/-! DEFINITION. Decoding and encoding (rules R80 to R92). The decoder dispatches on the class and, for classes 0x0,
0x8, 0xE and 0xF, on the secondary field, as R83 says; the opcode map of R88 stands beside it as a table of masks and
patterns, so that a statement can hold the one against the other. -/

namespace Sys2Proof

/-- Why bytes are no instruction. -/
inductive DecodeError where
  /-- The word matches no row of the opcode map (R90). The step reports it and goes on (R104). -/
  | unknownOpcode (op : Word)
  /-- Fewer than the 2 bytes of an instruction (R80). -/
  | truncated
deriving DecidableEq, Repr

/-! ### The fields of a word (R81) -/

/-- `class = op[15:12]`. -/
def fieldClass (op : Word) : Nibble := op.extractLsb' 12 4
/-- `x = op[11:8]`. -/
def fieldX (op : Word) : Nibble := op.extractLsb' 8 4
/-- `y = op[7:4]`. -/
def fieldY (op : Word) : Nibble := op.extractLsb' 4 4
/-- `n = op[3:0]`. -/
def fieldN (op : Word) : Nibble := op.extractLsb' 0 4
/-- `nn = op[7:0]`. -/
def fieldNN (op : Word) : Byte := op.extractLsb' 0 8
/-- `nnn = op[11:0]`. -/
def fieldNNN (op : Word) : Addr := op.extractLsb' 0 12

/-! ### Byte order (R60): the byte at the lower address is the high byte -/

/-- `op = (byte0 << 8) | byte1`. -/
def wordOfBytes (byte0 byte1 : Byte) : Word := byte0 ++ byte1
/-- The byte at the lower address. -/
def hiByte (op : Word) : Byte := op.extractLsb' 8 8
/-- The byte at the higher address. -/
def loByte (op : Word) : Byte := op.extractLsb' 0 8

/-! ### The decoder -/

/-- Class 0x0: the secondary is `nn` alone, so any `x` is accepted (R84). -/
def decodeClass0 (op : Word) : Except DecodeError Instr :=
  if fieldNN op = 0xE0 then .ok (.cls (fieldX op))
  else if fieldNN op = 0xEE then .ok (.ret (fieldX op))
  else .error (.unknownOpcode op)

/-- Class 0x8: the secondary is `n` (R83). -/
def decodeClass8 (op : Word) : Except DecodeError Instr :=
  if fieldN op = 0x0 then .ok (.ldReg (fieldX op) (fieldY op))
  else if fieldN op = 0x1 then .ok (.or (fieldX op) (fieldY op))
  else if fieldN op = 0x2 then .ok (.and (fieldX op) (fieldY op))
  else if fieldN op = 0x3 then .ok (.xor (fieldX op) (fieldY op))
  else if fieldN op = 0x4 then .ok (.addReg (fieldX op) (fieldY op))
  else if fieldN op = 0x5 then .ok (.sub (fieldX op) (fieldY op))
  else if fieldN op = 0x6 then .ok (.shr (fieldX op) (fieldY op))
  else if fieldN op = 0x7 then .ok (.subn (fieldX op) (fieldY op))
  else if fieldN op = 0xE then .ok (.shl (fieldX op) (fieldY op))
  else .error (.unknownOpcode op)

/-- Class 0xE: the secondary is `nn`. -/
def decodeClassE (op : Word) : Except DecodeError Instr :=
  if fieldNN op = 0x9E then .ok (.skp (fieldX op))
  else if fieldNN op = 0xA1 then .ok (.sknp (fieldX op))
  else .error (.unknownOpcode op)

/-- Class 0xF: the secondary is `nn`. -/
def decodeClassF (op : Word) : Except DecodeError Instr :=
  if fieldNN op = 0x07 then .ok (.ldVxDt (fieldX op))
  else if fieldNN op = 0x0A then .ok (.ldVxK (fieldX op))
  else if fieldNN op = 0x15 then .ok (.ldDtVx (fieldX op))
  else if fieldNN op = 0x18 then .ok (.ldStVx (fieldX op))
  else if fieldNN op = 0x1E then .ok (.addIVx (fieldX op))
  else if fieldNN op = 0x29 then .ok (.ldFVx (fieldX op))
  else if fieldNN op = 0x33 then .ok (.ldBVx (fieldX op))
  else if fieldNN op = 0x55 then .ok (.ldMemVx (fieldX op))
  else if fieldNN op = 0x65 then .ok (.ldVxMem (fieldX op))
  else .error (.unknownOpcode op)

/-- Decode a word: first the class, then the secondary of classes 0x0, 0x8, 0xE and 0xF (R83). Class 0xB holds no
instruction (R89, R90). -/
def decode (op : Word) : Except DecodeError Instr :=
  if fieldClass op = 0x0 then decodeClass0 op
  else if fieldClass op = 0x1 then .ok (.jp (fieldNNN op))
  else if fieldClass op = 0x2 then .ok (.call (fieldNNN op))
  else if fieldClass op = 0x3 then .ok (.seImm (fieldX op) (fieldNN op))
  else if fieldClass op = 0x4 then .ok (.sneImm (fieldX op) (fieldNN op))
  else if fieldClass op = 0x5 then .ok (.seReg (fieldX op) (fieldY op) (fieldN op))
  else if fieldClass op = 0x6 then .ok (.ldImm (fieldX op) (fieldNN op))
  else if fieldClass op = 0x7 then .ok (.addImm (fieldX op) (fieldNN op))
  else if fieldClass op = 0x8 then decodeClass8 op
  else if fieldClass op = 0x9 then .ok (.sneReg (fieldX op) (fieldY op) (fieldN op))
  else if fieldClass op = 0xA then .ok (.ldI (fieldNNN op))
  else if fieldClass op = 0xC then .ok (.rnd (fieldX op) (fieldNN op))
  else if fieldClass op = 0xD then .ok (.drw (fieldX op) (fieldY op) (fieldN op))
  else if fieldClass op = 0xE then decodeClassE op
  else if fieldClass op = 0xF then decodeClassF op
  else .error (.unknownOpcode op)

/-- Decode the instruction at the front of a list of bytes, and give the rest. Always 2 bytes (R80). -/
def decodeBytes : List Byte → Except DecodeError (Instr × List Byte)
  | byte0 :: byte1 :: rest =>
    match decode (wordOfBytes byte0 byte1) with
    | .ok i => .ok (i, rest)
    | .error e => .error e
  | _ => .error .truncated

/-! ### The encoder (R81, R88) -/

/-- A word of four nibbles: class, x, y, n. -/
def packXYN (c x y n : Nibble) : Word := c ++ x ++ y ++ n
/-- A word of class, x and `nn`. -/
def packXNN (c x : Nibble) (nn : Byte) : Word := c ++ x ++ nn
/-- A word of class and `nnn`. -/
def packNNN (c : Nibble) (nnn : Addr) : Word := c ++ nnn

/-- The word of an instruction, from the patterns of R88. -/
def encode : Instr → Word
  | .cls x => packXNN 0x0 x 0xE0
  | .ret x => packXNN 0x0 x 0xEE
  | .jp nnn => packNNN 0x1 nnn
  | .call nnn => packNNN 0x2 nnn
  | .seImm x nn => packXNN 0x3 x nn
  | .sneImm x nn => packXNN 0x4 x nn
  | .seReg x y n => packXYN 0x5 x y n
  | .ldImm x nn => packXNN 0x6 x nn
  | .addImm x nn => packXNN 0x7 x nn
  | .ldReg x y => packXYN 0x8 x y 0x0
  | .or x y => packXYN 0x8 x y 0x1
  | .and x y => packXYN 0x8 x y 0x2
  | .xor x y => packXYN 0x8 x y 0x3
  | .addReg x y => packXYN 0x8 x y 0x4
  | .sub x y => packXYN 0x8 x y 0x5
  | .shr x y => packXYN 0x8 x y 0x6
  | .subn x y => packXYN 0x8 x y 0x7
  | .shl x y => packXYN 0x8 x y 0xE
  | .sneReg x y n => packXYN 0x9 x y n
  | .ldI nnn => packNNN 0xA nnn
  | .rnd x nn => packXNN 0xC x nn
  | .drw x y n => packXYN 0xD x y n
  | .skp x => packXNN 0xE x 0x9E
  | .sknp x => packXNN 0xE x 0xA1
  | .ldVxDt x => packXNN 0xF x 0x07
  | .ldDtVx x => packXNN 0xF x 0x15
  | .ldStVx x => packXNN 0xF x 0x18
  | .ldVxK x => packXNN 0xF x 0x0A
  | .addIVx x => packXNN 0xF x 0x1E
  | .ldFVx x => packXNN 0xF x 0x29
  | .ldBVx x => packXNN 0xF x 0x33
  | .ldMemVx x => packXNN 0xF x 0x55
  | .ldVxMem x => packXNN 0xF x 0x65

/-- The two bytes of an instruction, the one at the lower address first (R60). -/
def encodeBytes (i : Instr) : List Byte := [hiByte (encode i), loByte (encode i)]

/-! ### The opcode map as the spec's table (R88) -/

/-- One row of the opcode map: a word `op` selects it when `op & mask = pattern`. -/
structure OpcodeRow where
  number : Nat
  pattern : Word
  mask : Word
deriving DecidableEq, Repr

/-- Rows 1 to 9 of R88: the classes 0x0 to 0x7. -/
def opcodeMapLow : List OpcodeRow :=
  [⟨1, 0x00E0, 0xF0FF⟩, ⟨2, 0x00EE, 0xF0FF⟩, ⟨3, 0x1000, 0xF000⟩, ⟨4, 0x2000, 0xF000⟩,
   ⟨5, 0x3000, 0xF000⟩, ⟨6, 0x4000, 0xF000⟩, ⟨7, 0x5000, 0xF000⟩, ⟨8, 0x6000, 0xF000⟩,
   ⟨9, 0x7000, 0xF000⟩]

/-- Rows 10 to 18 of R88: class 0x8. -/
def opcodeMapAlu : List OpcodeRow :=
  [⟨10, 0x8000, 0xF00F⟩, ⟨11, 0x8001, 0xF00F⟩, ⟨12, 0x8002, 0xF00F⟩, ⟨13, 0x8003, 0xF00F⟩,
   ⟨14, 0x8004, 0xF00F⟩, ⟨15, 0x8005, 0xF00F⟩, ⟨16, 0x8006, 0xF00F⟩, ⟨17, 0x8007, 0xF00F⟩,
   ⟨18, 0x800E, 0xF00F⟩]

/-- Rows 19 to 33 of R88: the classes 0x9 to 0xF. -/
def opcodeMapHigh : List OpcodeRow :=
  [⟨19, 0x9000, 0xF000⟩, ⟨20, 0xA000, 0xF000⟩, ⟨21, 0xC000, 0xF000⟩, ⟨22, 0xD000, 0xF000⟩,
   ⟨23, 0xE09E, 0xF0FF⟩, ⟨24, 0xE0A1, 0xF0FF⟩, ⟨25, 0xF007, 0xF0FF⟩, ⟨26, 0xF015, 0xF0FF⟩,
   ⟨27, 0xF018, 0xF0FF⟩, ⟨28, 0xF00A, 0xF0FF⟩, ⟨29, 0xF01E, 0xF0FF⟩, ⟨30, 0xF029, 0xF0FF⟩,
   ⟨31, 0xF033, 0xF0FF⟩, ⟨32, 0xF055, 0xF0FF⟩, ⟨33, 0xF065, 0xF0FF⟩]

/-- The opcode map of R88, all 33 rows. -/
def opcodeMap : List OpcodeRow := opcodeMapLow ++ opcodeMapAlu ++ opcodeMapHigh

/-! ### The opcode table's numbering -/

/-- The instruction word whose bits are `w`, of which the table gives `nbits`; the bits above are 0. -/
def tableWord (nbits w : Nat) : Word := BitVec.ofNat 16 (w % 2 ^ nbits)

/-- What the decoder reads from the word `w` laid out big-endian (R60). -/
def decodeTableWord (nbits w : Nat) : Option Instr :=
  match decodeBytes [hiByte (tableWord nbits w), loByte (tableWord nbits w)] with
  | .ok (i, _) => some i
  | .error _ => none

end Sys2Proof
end

