-- ==== Sys2Proof/Config.lean ====
section
/-! DEFINITION. What is fixed for the machine (the parameters of rule R8) and the one value the spec leaves free:
the random byte of Cxnn (rules R9, R34; decision D18). -/

namespace Sys2Proof

/-- `MEM_SIZE`: addresses 0x000 to 0xFFF exist (R8, R50). -/
def Config.memSize : Nat := 4096

/-- `PROG_BASE`: where the host's load puts a program (R8, R344). -/
def Config.progBase : Nat := 0x200

/-- `MAX_IMAGE`: the longest image the host may load, in bytes (R8, R344). -/
def Config.maxImage : Nat := 3584

/-- The random byte of the `k`-th draw (R34, R176). FREE VALUE: it has no body, so nothing can be proved of its
values, and every theorem holds for every sequence of bytes (log entry 1, DESIGN CHOICE, safe). -/
opaque Config.rnd : Nat → Byte

end Sys2Proof
end

