-- ==== Sys2Proof/Machine/State.lean ====
section
/-! DEFINITION. The state of the block (rules R20 to R40), as plain data, its reset value, and the reasons a step can
stop. -/

namespace Sys2Proof.Machine

/-- The conditions of R301, with NONE for `halt_cause` while the block runs. -/
inductive Cause where
  /-- Code 0: no condition. -/
  | none
  /-- Code 1: the word matches no row of the opcode map (R104). Does not halt. -/
  | unknownOpcode
  /-- Code 2: 2nnn with SP = 16 (R122). -/
  | stackOverflow
  /-- Code 3: 00EE with SP = 0 (R121). -/
  | stackUnderflow
  /-- Code 4: a data address at or above 4096 (R59). -/
  | memRange
  /-- Code 5: a fetch that would touch an address at or above 4096 (R100). -/
  | fetchRange
  /-- Code 6: Ex9E or ExA1 with V[x] above 0xF (R145, R146). -/
  | keyRange
deriving DecidableEq, Repr

/-- The report a step hands to the host (R302): the cause, the fetch address, and the word where one was fetched. -/
structure Report where
  cause  : Cause
  pc     : Word
  opcode : Option Word
deriving DecidableEq, Repr

/-- Memory: the bytes that differ from what reset leaves, as (address, byte) pairs in rising order of address
(`Memory.wf`); an address that is not listed reads as `Memory.unlisted` says (R52, R54). -/
abbrev Memory := List Host.Cell

/-- The state of the block: the tuple of R38, and two fields of the model's own (`report`, `draws`). -/
structure State where
  /-- V0 to VF (R20). -/
  v         : Vector Byte 16
  /-- The index register I (R23). -/
  idx       : Word
  /-- The program counter PC (R24). -/
  pc        : Word
  /-- The stack pointer SP: a count from 0 to 16 (R26). -/
  sp        : Fin 17
  /-- The return addresses S[0] to S[15] (R27). -/
  stack     : Vector Word 16
  /-- The delay timer DT (R29). -/
  dt        : Byte
  /-- The sound timer ST (R30). -/
  st        : Byte
  /-- The framebuffer FB: 2048 cells, one byte a pixel, row-major (R31). -/
  fb        : Vector Byte 2048
  /-- The key input register K: true is pressed (R33). -/
  keys      : Vector Bool 16
  /-- The memory M (R50). -/
  mem       : Memory
  /-- The sticky halted flag (R36). -/
  halted    : Bool
  /-- The cause of the halt (R36). -/
  haltCause : Cause
  /-- The report output of the last step, none where it raised nothing (R302, R107). The model's own place for what
  the spec has the step return (log entry 2). -/
  report    : Option Report
  /-- How many random bytes Cxnn has drawn. The model's own field: it names the draw that `Config.rnd` answers next
  (log entry 1). -/
  draws     : Nat
deriving DecidableEq, Repr

/-- The faults: none. Every error condition of the spec is a condition that a step reports, in a next state (R300,
R303), and every access is checked before it is made (R57, R58), so nothing raises a fault. -/
inductive Fault where
deriving DecidableEq, Repr

/-- The refusals. -/
inductive Refusal where
  /-- An instruction that has no meaning yet. Raised by exec's refused arms only, of which none is left. Safe: nothing
  is claimed of the instruction. -/
  | notModelled (mnemonic : String)
deriving DecidableEq, Repr

/-- The state after reset (R39, R40, R340). Memory lists nothing: an unlisted address reads as reset leaves it, the
font table at 0x000 to 0x04F and 0x00 elsewhere. The stack entries are the spec's own choice (D16, log entry 6);
`report` and `draws` are the model's own (log entries 2 and 1). -/
def State.reset : State where
  v := Vector.replicate 16 0
  idx := 0
  pc := 0x200
  sp := 0
  stack := Vector.replicate 16 0
  dt := 0
  st := 0
  fb := Vector.replicate 2048 0
  keys := Vector.replicate 16 false
  mem := []
  halted := false
  haltCause := .none
  report := none
  draws := 0

end Sys2Proof.Machine
end

