-- ==== Sys2Proof/Machine/Memory.lean ====
section
/-! DEFINITION. The operations on memory (rules R50 to R68): what reset leaves, reading and writing one byte, and the
ascending runs of bytes that Dxyn, Fx33, Fx55, Fx65 and the host's load move. All are total; CheckRange
(`State.checkRange`) has been passed before any of them is used (R57, R58). -/

namespace Sys2Proof.Machine

/-- The font table of R54, glyph by glyph, top row first. The bytes are the spec's decision D19 (log entry 5). -/
def fontGlyphs : List (List Byte) :=
  [[0xF0, 0x90, 0x90, 0x90, 0xF0],
   [0x20, 0x60, 0x20, 0x20, 0x70],
   [0xF0, 0x10, 0xF0, 0x80, 0xF0],
   [0xF0, 0x10, 0xF0, 0x10, 0xF0],
   [0x90, 0x90, 0xF0, 0x10, 0x10],
   [0xF0, 0x80, 0xF0, 0x10, 0xF0],
   [0xF0, 0x80, 0xF0, 0x90, 0xF0],
   [0xF0, 0x10, 0x20, 0x40, 0x40],
   [0xF0, 0x90, 0xF0, 0x90, 0xF0],
   [0xF0, 0x90, 0xF0, 0x10, 0xF0],
   [0xF0, 0x90, 0xF0, 0x90, 0x90],
   [0xE0, 0x90, 0xE0, 0x90, 0xE0],
   [0xF0, 0x80, 0x80, 0x80, 0xF0],
   [0xE0, 0x90, 0x90, 0x90, 0xE0],
   [0xF0, 0x80, 0xF0, 0x80, 0xF0],
   [0xF0, 0x80, 0xF0, 0x80, 0x80]]

/-- What an address that is not listed reads as: the byte reset puts there (R52, R54, R340). -/
def Memory.unlisted (a : Nat) : Byte :=
  if a < 80 then (fontGlyphs.getD (a / 5) []).getD (a % 5) 0 else 0

/-- `MemRead(a, 1)` (R57). -/
def Memory.read : Memory → Nat → Byte
  | [], a => Memory.unlisted a
  | (b, w) :: m, a => if a = b then w else Memory.read m a

/-- `MemWrite(a, 1, v)` (R58), keeping the canonical form. -/
def Memory.write : Memory → Nat → Byte → Memory
  | [], a, v => if v = Memory.unlisted a then [] else [(a, v)]
  | (b, w) :: m, a, v =>
    if a < b then
      if v = Memory.unlisted a then (b, w) :: m else (a, v) :: (b, w) :: m
    else if a = b then
      if v = Memory.unlisted a then m else (a, v) :: m
    else (b, w) :: Memory.write m a v

/-- The canonical form: addresses strictly rising, every address one that exists (R50), and no entry equal to what an
unlisted address reads as. -/
abbrev Memory.wf (m : Memory) : Prop :=
  m.Pairwise (fun c d => c.1 < d.1) ∧ ∀ c ∈ m, c.1 < Config.memSize ∧ c.2 ≠ Memory.unlisted c.1

/-- The `n` bytes from `base` up, in ascending order. -/
def Memory.readBytes (m : Memory) : Nat → Nat → List Byte
  | _, 0 => []
  | base, n + 1 => m.read base :: m.readBytes (base + 1) n

/-- Write a list of bytes from `base` up, in ascending order. -/
def Memory.writeBytes (m : Memory) : Nat → List Byte → Memory
  | _, [] => m
  | base, b :: bs => Memory.writeBytes (m.write base b) (base + 1) bs

end Sys2Proof.Machine
end

