-- ==== Sys2Proof/Machine/Ops.lean ====
section
/-! DEFINITION. The named operations on the state: the primitives of rule R13, raising a condition (R302), and the
range check (R59). A condition is what this machine has in place of an exception: it saves nothing, transfers control
nowhere (R308) and is never returned from (R309). -/

namespace Sys2Proof.Machine

/-! ### Reading and writing one piece of state -/

/-- `V[x]` (R20). -/
def State.getV (s : State) (x : Nibble) : Byte := s.v[x.toNat]'(Nibble.toNat_lt_16 x)

/-- `V[x] <- b` (R20): no register is hard-wired. -/
def State.setV (s : State) (x : Nibble) (b : Byte) : State :=
  { s with v := s.v.set x.toNat b (Nibble.toNat_lt_16 x) }

/-- The register that several instructions also write as a flag (R21). -/
def vF : Nibble := 0xF

/-- `I <- w` (R23). -/
def State.setIdx (s : State) (w : Word) : State := { s with idx := w }

/-- `pc <- w` (R24). -/
def State.setPc (s : State) (w : Word) : State := { s with pc := w }

/-- `DT <- b` (R29). -/
def State.setDt (s : State) (b : Byte) : State := { s with dt := b }

/-- `ST <- b` (R30). -/
def State.setSt (s : State) (b : Byte) : State := { s with st := b }

/-- Replace memory by the result of a memory operation. -/
def State.setMem (s : State) (m : Memory) : State := { s with mem := m }

/-- Replace the framebuffer (R31). -/
def State.setFb (s : State) (fb : Vector Byte 2048) : State := { s with fb := fb }

/-- Replace the key input register (R33, R318). -/
def State.setK (s : State) (k : Vector Bool 16) : State := { s with keys := k }

/-- Set the step's report output (R302). -/
def State.setReport (s : State) (r : Option Report) : State := { s with report := r }

/-- Count the draws (log entry 1). -/
def State.setDraws (s : State) (k : Nat) : State := { s with draws := k }

/-- `halted <- 1; halt_cause <- c` (R302). -/
def State.setHalt (s : State) (c : Cause) : State := { s with halted := true, haltCause := c }

/-! ### Conditions -/

/-- The cause codes of R301. -/
def Cause.code : Cause → Nat
  | .none => 0
  | .unknownOpcode => 1
  | .stackOverflow => 2
  | .stackUnderflow => 3
  | .memRange => 4
  | .fetchRange => 5
  | .keyRange => 6

/-- Which conditions halt the block (R301): every one but UNKNOWN_OPCODE. -/
def Cause.halts : Cause → Bool
  | .none => false
  | .unknownOpcode => false
  | .stackOverflow => true
  | .stackUnderflow => true
  | .memRange => true
  | .fetchRange => true
  | .keyRange => true

/-- `raise C(a, op)` (R302): the report, and for a halting cause the halted state. -/
def State.raise (s : State) (c : Cause) (a : Word) (op : Option Word) : State :=
  if c.halts then (s.setReport (some ⟨c, a, op⟩)).setHalt c else s.setReport (some ⟨c, a, op⟩)

/-- The fetch address `a` of the instruction that is executing: PC already holds `trunc_16(a + 2)` (R15, R101). -/
def State.fetchAddr (s : State) : Word := s.pc - 2

/-- `raise C(a, op)` from the rule of the instruction `i`, whose word is `encode i`. -/
def State.raiseFrom (s : State) (c : Cause) (i : Instr) : State :=
  s.raise c s.fetchAddr (some (encode i))

/-- `CheckRange` (R59) on a data access of the instruction `i` whose highest address is `hi`, an exact natural: below
4096 the instruction goes on with `body`; otherwise it does nothing of its own and MEM_RANGE is raised. -/
def State.checkRange (s : State) (hi : Nat) (i : Instr) (body : State → State) : State :=
  if hi < Config.memSize then body s else s.raiseFrom .memRange i

/-! ### Control flow -/

/-- `skip`: PC advances by a further 2 (R140). -/
def State.skip (s : State) : State := s.setPc (s.pc + 2)

/-- Skip when the condition holds, else change nothing (R140). -/
def State.skipIf (s : State) (c : Bool) : State := if c then s.skip else s

/-- Push the advanced PC: `S[SP] <- pc; SP <- SP + 1` (R120, R122), for SP below 16. -/
def State.pushPc (s : State) (h : s.sp.val < 16) : State :=
  { s with stack := s.stack.set s.sp.val s.pc h, sp := ⟨s.sp.val + 1, by omega⟩ }

/-- Pop into PC: `SP <- SP - 1; pc <- S[SP]` (R120, R121), for SP above 0. The entry keeps its value. -/
def State.popPc (s : State) (h : 0 < s.sp.val) : State :=
  { s with sp := ⟨s.sp.val - 1, by omega⟩, pc := s.stack[s.sp.val - 1]'(by omega) }

/-! ### Keys -/

/-- `K[k] = 1` (R33). -/
def State.keyDown (s : State) (k : Nibble) : Bool := s.keys[k.toNat]'(Nibble.toNat_lt_16 k)

/-- `lowest(K)`: the lowest-numbered key that is down, none where no key is (R253). -/
def State.lowestKey (s : State) : Option Nibble :=
  ((List.range 16).map (BitVec.ofNat 4)).find? s.keyDown

/-! ### Framebuffer (R31, R231) -/

/-- The cell at column `x mod 64`, row `y mod 32`: coordinates wrap and are never clipped (R234). -/
def fbCell (x y : Nat) : Fin 2048 := ⟨y % 32 * 64 + x % 64, by omega⟩

/-- `FB[p]`. -/
def State.pixel (s : State) (p : Fin 2048) : Byte := s.fb[p.val]

/-- The first operation of the write port: every cell becomes 0 (R231). -/
def State.clearFb (s : State) : State := s.setFb (Vector.replicate 2048 0)

/-- The second operation of the write port, as Dxyn uses it: if the cell holds 1, VF becomes 1; the cell is XORed with
1 (R231, R232). -/
def State.drawCell (s : State) (p : Fin 2048) : State :=
  (if s.pixel p = 1 then s.setV vF 1 else s).setFb (s.fb.set p.val (s.pixel p ^^^ 1))

end Sys2Proof.Machine
end

