-- ==== Sys2Proof/Machine/Flags.lean ====
section
/-! DEFINITION. Every flag computation. The machine has no flags but the use of VF (rule R28); the values here are what
8xy4, 8xy5, 8xy6, 8xy7 and 8xyE write there (R167), and the two ways their statements combine (R14, decision D3). The
collision flag of Dxyn is computed with the pixels (R233), in `State.drawCell`. -/

namespace Sys2Proof.Machine

/-- A flag as a byte: 1 or 0. -/
def flagByte (c : Bool) : Byte := if c then 1 else 0

/-- The carry out of bit 7: the exact sum exceeds 255 (R169). -/
def carryFlag (v w : Byte) : Byte := flagByte (decide (v.toNat + w.toNat > 255))

/-- No borrow in `v - w`: v >= w, unsigned (R170). -/
def noBorrowFlag (v w : Byte) : Byte := flagByte (decide (v.toNat ≥ w.toNat))

/-- The bit a right shift loses (R172). -/
def lowBitFlag (v : Byte) : Byte := v &&& 1

/-- The bit a left shift loses (R174). -/
def highBitFlag (v : Byte) : Byte := (v >>> 7) &&& 1

/-- Write a flag to VF, then the value, computed from the registers as the flag's write left them, to V[x] (R167,
parameter VF_ALIAS = SEQUENTIAL of R9). -/
def State.flagThenValue (s : State) (x : Nibble) (flag : Byte) (value : State → Byte) : State :=
  (s.setV vF flag).setV x (value (s.setV vF flag))

end Sys2Proof.Machine
end

