-- ==== Sys2Proof/Machine/Operands.lean ====
section
/-! DEFINITION. Every operand form: immediates (rule R82), the one data addressing mode `I + k` (R209), the register
runs of Fx55 and Fx65 (R205, R206), the decimal digits of Fx33 (R204), the glyph address of Fx29 (R202), and the cells
a sprite covers (R232). -/

namespace Sys2Proof.Machine

/-- `zext_16(nnn)` (R82). -/
def addrOperand (nnn : Addr) : Word := nnn.setWidth 16

/-- `zext_16` of a register value. -/
def zext16 (b : Byte) : Word := b.setWidth 16

/-- `zext_8` of a key index. -/
def keyIndexByte (k : Nibble) : Byte := k.setWidth 8

/-- The data address `I + k`, an exact natural: it does not wrap (R209). -/
def State.dataAddr (s : State) (k : Nat) : Nat := s.idx.toNat + k

/-- The address of the font glyph of a digit: the whole 8-bit value times 5 (R202). -/
def glyphAddr (b : Byte) : Word := BitVec.ofNat 16 (b.toNat * 5)

/-- Hundreds, tens and units of a byte, by exact integer division (R204). -/
def decimalDigits (b : Byte) : List Byte :=
  [BitVec.ofNat 8 (b.toNat / 100), BitVec.ofNat 8 (b.toNat / 10 % 10), BitVec.ofNat 8 (b.toNat % 10)]

/-- The values of V[0] to V[x], in ascending order (R205). -/
def State.regsUpTo (s : State) (x : Nibble) : List Byte :=
  (List.range (x.toNat + 1)).map fun i => s.getV (BitVec.ofNat 4 i)

/-- Write a list of bytes to V[k], V[k+1], ..., in ascending order (R206). -/
def State.loadRegs (s : State) : Nat → List Byte → State
  | _, [] => s
  | k, b :: bs => (s.setV (BitVec.ofNat 4 k) b).loadRegs (k + 1) bs

/-- I after a bulk move of x + 1 bytes: `trunc_16(I + x + 1)` (R208). -/
def State.idxPast (s : State) (x : Nibble) : Word := s.idx + BitVec.ofNat 16 (x.toNat + 1)

/-- The cells that one sprite byte, drawn from column `X` of row `Y`, covers: bit 7 is the leftmost column (R232). -/
def rowCells (X Y : Nat) (b : Byte) : List (Fin 2048) :=
  ((List.range 8).filter fun c => b.getLsbD (7 - c)).map fun c => fbCell (X + c) Y

/-- The cells that a sprite's rows, drawn from (X, Y), cover, top row first (R232). -/
def spriteCells (X : Nat) : Nat → List Byte → List (Fin 2048)
  | _, [] => []
  | Y, b :: bs => rowCells X Y b ++ spriteCells X (Y + 1) bs

end Sys2Proof.Machine
end

