-- ==== Sys2Proof/Machine/Alu.lean ====
section
/-! DEFINITION. Register loads, arithmetic, logic, shifts and the random byte (rules R160 to R176). All values are
8-bit and wrap modulo 256 (R162). -/

namespace Sys2Proof.Machine

/-- LD Vx, nn (R160). -/
def execLdImm (x : Nibble) (nn : Byte) (s : State) : Host.Outcome State Fault Refusal :=
  .next (s.setV x nn)

/-- ADD Vx, nn (R161): no flag. -/
def execAddImm (x : Nibble) (nn : Byte) (s : State) : Host.Outcome State Fault Refusal :=
  .next (s.setV x (s.getV x + nn))

/-- LD Vx, Vy (R163). -/
def execLdReg (x y : Nibble) (s : State) : Host.Outcome State Fault Refusal :=
  .next (s.setV x (s.getV y))

/-- OR (R164): VF is not reset. -/
def execOr (x y : Nibble) (s : State) : Host.Outcome State Fault Refusal :=
  .next (s.setV x (s.getV x ||| s.getV y))

/-- AND (R165): VF is not reset. -/
def execAnd (x y : Nibble) (s : State) : Host.Outcome State Fault Refusal :=
  .next (s.setV x (s.getV x &&& s.getV y))

/-- XOR (R166): VF is not reset. -/
def execXor (x y : Nibble) (s : State) : Host.Outcome State Fault Refusal :=
  .next (s.setV x (s.getV x ^^^ s.getV y))

/-- ADD Vx, Vy (R168): the sum is a temporary of the operands as they were; VF is written first, then V[x]. -/
def execAddReg (x y : Nibble) (s : State) : Host.Outcome State Fault Refusal :=
  .next (s.flagThenValue x (carryFlag (s.getV x) (s.getV y)) fun _ => s.getV x + s.getV y)

/-- SUB (R170): the difference reads V after the write of VF. -/
def execSub (x y : Nibble) (s : State) : Host.Outcome State Fault Refusal :=
  .next (s.flagThenValue x (noBorrowFlag (s.getV x) (s.getV y)) fun t => t.getV x - t.getV y)

/-- SHR (R172): the shift reads V after the write of VF; V[y] is not used (R173). -/
def execShr (x : Nibble) (s : State) : Host.Outcome State Fault Refusal :=
  .next (s.flagThenValue x (lowBitFlag (s.getV x)) fun t => t.getV x >>> 1)

/-- SUBN (R171): the difference reads V after the write of VF. -/
def execSubn (x y : Nibble) (s : State) : Host.Outcome State Fault Refusal :=
  .next (s.flagThenValue x (noBorrowFlag (s.getV y) (s.getV x)) fun t => t.getV y - t.getV x)

/-- SHL (R174): the shift reads V after the write of VF; V[y] is not used (R173). -/
def execShl (x : Nibble) (s : State) : Host.Outcome State Fault Refusal :=
  .next (s.flagThenValue x (highBitFlag (s.getV x)) fun t => t.getV x <<< 1)

/-- Cxnn for the random byte `r` (R176). -/
def State.randomInto (s : State) (x : Nibble) (nn r : Byte) : State := s.setV x (r &&& nn)

/-- RND (R176): the byte is the next draw (log entry 1), and the draw is counted. -/
def execRnd (x : Nibble) (nn : Byte) (s : State) : Host.Outcome State Fault Refusal :=
  .next ((s.randomInto x nn (Config.rnd s.draws)).setDraws (s.draws + 1))

end Sys2Proof.Machine
end

