-- ==== Sys2Proof/Machine/ControlFlow.lean ====
section
/-! DEFINITION. Control flow: 00EE, 1nnn, 2nnn (rules R120 to R125). -/

namespace Sys2Proof.Machine

/-- RET (R121): SP = 0 raises STACK_UNDERFLOW; else pop into PC. -/
def execRet (x : Nibble) (s : State) : Host.Outcome State Fault Refusal :=
  .next (if h : s.sp.val = 0 then s.raiseFrom .stackUnderflow (.ret x) else s.popPc (by omega))

/-- CALL (R122): SP = 16 raises STACK_OVERFLOW; else push the advanced PC and go to `nnn`. -/
def execCall (nnn : Addr) (s : State) : Host.Outcome State Fault Refusal :=
  .next (if h : s.sp.val = 16 then s.raiseFrom .stackOverflow (.call nnn)
    else (s.pushPc (by omega)).setPc (addrOperand nnn))

/-- JP (R123). -/
def execJp (nnn : Addr) (s : State) : Host.Outcome State Fault Refusal :=
  .next (s.setPc (addrOperand nnn))

end Sys2Proof.Machine
end

