-- ==== Sys2Proof/Machine/Display.lean ====
section
/-! DEFINITION. Framebuffer: 00E0 and Dxyn (rules R230 to R238). -/

namespace Sys2Proof.Machine

/-- CLS (R230); the `x` field is ignored (R84). -/
def execCls (s : State) : Host.Outcome State Fault Refusal :=
  .next s.clearFb

/-- Draw a sprite's rows from (X, Y): VF becomes 0, then the cells are drawn in order (R232). -/
def State.drawSprite (s : State) (X Y : Nat) (rows : List Byte) : State :=
  (spriteCells X Y rows).foldl State.drawCell (s.setV vF 0)

/-- DRW (R232). The coordinates are read before VF is written (R238); with n = 0 there is no range check and no row
(R236). The rows are read from I up; drawing changes no memory, so reading them first is reading them in turn. -/
def execDrw (x y n : Nibble) (s : State) : Host.Outcome State Fault Refusal :=
  .next (if n = 0 then s.drawSprite (s.getV x).toNat (s.getV y).toNat []
    else s.checkRange (s.dataAddr (n.toNat - 1)) (.drw x y n) fun s =>
      s.drawSprite (s.getV x).toNat (s.getV y).toNat (s.mem.readBytes (s.dataAddr 0) n.toNat))

end Sys2Proof.Machine
end

