-- ==== Sys2Proof/Machine/IndexMemory.lean ====
section
/-! DEFINITION. The index register and data memory (rules R200 to R209). -/

namespace Sys2Proof.Machine

/-- LD I, nnn (R200). -/
def execLdI (nnn : Addr) (s : State) : Host.Outcome State Fault Refusal :=
  .next (s.setIdx (addrOperand nnn))

/-- ADD I, Vx (R201): no flag; wraps at 16 bits (D22). -/
def execAddIVx (x : Nibble) (s : State) : Host.Outcome State Fault Refusal :=
  .next (s.setIdx (s.idx + zext16 (s.getV x)))

/-- LD F, Vx (R202). -/
def execLdFVx (x : Nibble) (s : State) : Host.Outcome State Fault Refusal :=
  .next (s.setIdx (glyphAddr (s.getV x)))

/-- LD B, Vx (R203): I is not changed. -/
def execLdBVx (x : Nibble) (s : State) : Host.Outcome State Fault Refusal :=
  .next (s.checkRange (s.dataAddr 2) (.ldBVx x) fun s =>
    s.setMem (s.mem.writeBytes (s.dataAddr 0) (decimalDigits (s.getV x))))

/-- LD [I], Vx (R205): V[0] to V[x] go to I, I + 1, ...; then I advances by x + 1 (R207, R208). -/
def execLdMemVx (x : Nibble) (s : State) : Host.Outcome State Fault Refusal :=
  .next (s.checkRange (s.dataAddr x.toNat) (.ldMemVx x) fun s =>
    (s.setMem (s.mem.writeBytes (s.dataAddr 0) (s.regsUpTo x))).setIdx (s.idxPast x))

/-- LD Vx, [I] (R206): V[0] to V[x] come from I, I + 1, ...; then I advances by x + 1 (R207, R208). -/
def execLdVxMem (x : Nibble) (s : State) : Host.Outcome State Fault Refusal :=
  .next (s.checkRange (s.dataAddr x.toNat) (.ldVxMem x) fun s =>
    (s.loadRegs 0 (s.mem.readBytes (s.dataAddr 0) (x.toNat + 1))).setIdx (s.idxPast x))

end Sys2Proof.Machine
end

