-- ==== Sys2Proof/Machine/Skips.lean ====
section
/-! DEFINITION. The conditional skips (rules R140 to R147). -/

namespace Sys2Proof.Machine

/-- SE Vx, nn (R141). -/
def execSeImm (x : Nibble) (nn : Byte) (s : State) : Host.Outcome State Fault Refusal :=
  .next (s.skipIf (decide (s.getV x = nn)))

/-- SNE Vx, nn (R142). -/
def execSneImm (x : Nibble) (nn : Byte) (s : State) : Host.Outcome State Fault Refusal :=
  .next (s.skipIf (decide (s.getV x ≠ nn)))

/-- SE Vx, Vy (R143); the `n` field is ignored (R85). -/
def execSeReg (x y : Nibble) (s : State) : Host.Outcome State Fault Refusal :=
  .next (s.skipIf (decide (s.getV x = s.getV y)))

/-- SNE Vx, Vy (R144); the `n` field is ignored (R85). -/
def execSneReg (x y : Nibble) (s : State) : Host.Outcome State Fault Refusal :=
  .next (s.skipIf (decide (s.getV x ≠ s.getV y)))

/-- Skip on the key numbered V[x]: above 0xF KEY_RANGE is raised, so that below it the index is the low nibble
(R145, R146). -/
def State.skipOnKey (s : State) (x : Nibble) (i : Instr) (down : Bool) : State :=
  if (s.getV x).toNat > 0xF then s.raiseFrom .keyRange i
  else s.skipIf (s.keyDown ((s.getV x).setWidth 4) == down)

/-- SKP (R145). -/
def execSkp (x : Nibble) (s : State) : Host.Outcome State Fault Refusal :=
  .next (s.skipOnKey x (.skp x) true)

/-- SKNP (R146). -/
def execSknp (x : Nibble) (s : State) : Host.Outcome State Fault Refusal :=
  .next (s.skipOnKey x (.sknp x) false)

end Sys2Proof.Machine
end

