-- ==== Sys2Proof/Machine/TimersKeys.lean ====
section
/-! DEFINITION. Timer access and key wait (rules R250 to R255). -/

namespace Sys2Proof.Machine

/-- LD Vx, DT (R250). -/
def execLdVxDt (x : Nibble) (s : State) : Host.Outcome State Fault Refusal :=
  .next (s.setV x s.dt)

/-- LD DT, Vx (R251). -/
def execLdDtVx (x : Nibble) (s : State) : Host.Outcome State Fault Refusal :=
  .next (s.setDt (s.getV x))

/-- LD ST, Vx (R252). -/
def execLdStVx (x : Nibble) (s : State) : Host.Outcome State Fault Refusal :=
  .next (s.setSt (s.getV x))

/-- LD Vx, K (R254): with no key down PC goes back to the instruction's own address; else V[x] gets the index of the
lowest key that is down (R253). -/
def execLdVxK (x : Nibble) (s : State) : Host.Outcome State Fault Refusal :=
  .next (match s.lowestKey with
    | none => s.setPc (s.pc - 2)
    | some k => s.setV x (keyIndexByte k))

end Sys2Proof.Machine
end

