-- ==== Sys2Proof/Machine/Cycle.lean ====
section
/-! DEFINITION. The cycle step (rules R100 to R108): fetch, the advance of PC, decode, execute, and the two conditions
of the step itself. Step.lean only calls what stands here. -/

namespace Sys2Proof.Machine

/-- Both bytes of the instruction at PC exist: `a + 1 < 4096` (R100). -/
def State.fetchable (s : State) : Bool := decide (s.pc.toNat + 1 < Config.memSize)

/-- The word at PC, the byte at the lower address high (R60, R100). -/
def State.fetchWord (s : State) : Word :=
  wordOfBytes (s.mem.read s.pc.toNat) (s.mem.read (s.pc.toNat + 1))

/-- The step's report output is none unless the step raises a condition (R107). -/
def State.clearReport (s : State) : State := s.setReport none

/-- The state in which an instruction executes: no report, and PC advanced by 2 (R101). -/
def State.beginInstr (s : State) : State := s.clearReport.setPc (s.pc + 2)

/-- FETCH_RANGE (R100): no word was fetched, and PC stays `a`. -/
def State.fetchFails (s : State) : State := s.clearReport.raise .fetchRange s.pc none

/-- UNKNOWN_OPCODE (R104): nothing changes but PC, and the block goes on. -/
def State.unknownWord (s : State) (op : Word) : State :=
  s.beginInstr.raise .unknownOpcode s.pc (some op)

/-- Decode the fetched word and execute it (R102, R103, R104). -/
def runWord (op : Word) (s : State) : Host.Outcome State Fault Refusal :=
  match decode op with
  | .ok i => exec i s.beginInstr
  | .error _ => .next (s.unknownWord op)

/-- One step (R105): nothing while halted (R304), else fetch and run. -/
def cycle (s : State) : Host.Outcome State Fault Refusal :=
  if s.halted then .next s.clearReport
  else if s.fetchable then runWord s.fetchWord s
  else .next s.fetchFails

/-- Store a word where the next fetch reads it, big-endian (R60). Where PC is so high that no word can stand there,
nothing is stored. -/
def State.placeWord (s : State) (op : Word) : State :=
  if s.fetchable then
    s.setMem ((s.mem.write s.pc.toNat (hiByte op)).write (s.pc.toNat + 1) (loByte op))
  else s

end Sys2Proof.Machine
end

