-- ==== Sys2Proof/Machine/Step.lean ====
section
/-! DEFINITION. The step of the machine (rule R105) and the placing of an instruction where it fetches the next. -/

namespace Sys2Proof.Machine

/-- One call of the host's `step` (R105, R319). Its report is the field `report` of the next state. -/
def step (s : State) : Host.Outcome State Fault Refusal := cycle s

/-- `s` with the instruction whose bits are `w`, numbered as the opcode table numbers them, stored at PC. -/
def State.withFetchWord (s : State) (nbits w : Nat) : State := s.placeWord (tableWord nbits w)

end Sys2Proof.Machine
end

