-- ==== Sys2Proof/Machine/HostPort.lean ====
section
/-! DEFINITION. The host interface: the eight operations of rule R319, each one atomic transition (R63). The host may
call them in any order (R320), so a run of the block is a list of them; `step` is the only one that `Sys2Proof.core`
carries (log entry 3). -/

namespace Sys2Proof.Machine

/-- A host operation (R319). -/
inductive HostOp where
  /-- `reset()` (R340, R342). -/
  | reset
  /-- `load(image)` (R344). -/
  | load (image : List Byte)
  /-- `set_keys(k16)` (R318). -/
  | setKeys (k : BitVec 16)
  /-- `step(rnd8)` (R105). The random byte is the free value of `Config.rnd`. -/
  | step
  /-- `tick()` (R312). -/
  | tick
  /-- `read_framebuffer()` (R316). -/
  | readFramebuffer
  /-- `read_sound()` (R314). -/
  | readSound
  /-- `read_status()` (R319). -/
  | readStatus
deriving DecidableEq, Repr

/-- What a host operation returns (R319). -/
inductive Reply where
  /-- Nothing. -/
  | nothing
  /-- The image is longer than 3584 bytes: reported, and nothing was written (R344). -/
  | oversizedImage
  /-- The report of a step, or none (R302). -/
  | report (r : Option Report)
  /-- The 2048 cells in row-major order (R316). -/
  | framebuffer (cells : List Byte)
  /-- `sound_active` (R314). -/
  | sound (active : Bool)
  /-- `halted` and `halt_cause` (R36). -/
  | status (halted : Bool) (cause : Cause)
deriving DecidableEq, Repr

/-- `reset()` (R340, R342): the reset state, whatever the state before. The count of draws, which is no state of the
block, goes on, so that the bytes drawn after a reset are fresh (log entry 1). -/
def State.restart (s : State) : State := State.reset.setDraws s.draws

/-- `Tick()` (R312): each timer goes down by one, independently, and never below 0. Nothing else changes. -/
def State.tick (s : State) : State :=
  (s.setDt (if s.dt = 0 then 0 else s.dt - 1)).setSt (if s.st = 0 then 0 else s.st - 1)

/-- `set_keys(k)`: `K[i] <- k[i]` for every i (R318). -/
def State.setKeys (s : State) (k : BitVec 16) : State :=
  s.setK (Vector.ofFn fun i => k.getLsbD i.val)

/-- The image fits the program region (R344). -/
def imageFits (image : List Byte) : Bool := decide (image.length ≤ Config.maxImage)

/-- `load(image)`: the bytes go to 0x200 up; an oversized image writes nothing (R344, D24). -/
def State.load (s : State) (image : List Byte) : State :=
  if imageFits image then s.setMem (s.mem.writeBytes Config.progBase image) else s

/-- `sound_active = (ST != 0)` (R314). -/
def State.soundActive (s : State) : Bool := decide (s.st ≠ 0)

/-- The snapshot of the framebuffer, row-major (R316). -/
def State.framebuffer (s : State) : List Byte := s.fb.toList

/-- One host operation: the state it leaves and what it returns (R319). -/
def hostOp (o : HostOp) (s : State) : Host.Outcome (State × Reply) Fault Refusal :=
  match o with
  | .reset => .next (s.restart, .nothing)
  | .load image => .next (s.load image, if imageFits image then .nothing else .oversizedImage)
  | .setKeys k => .next (s.setKeys k, .nothing)
  | .step =>
    match step s with
    | .next t => .next (t, .report t.report)
    | .fault f => .fault f
    | .refused r => .refused r
  | .tick => .next (s.tick, .nothing)
  | .readFramebuffer => .next (s, .framebuffer s.framebuffer)
  | .readSound => .next (s, .sound s.soundActive)
  | .readStatus => .next (s, .status s.halted s.haltCause)

/-- A run: the host's operations in the order it calls them, each reply kept (R320). Any interleaving of steps, ticks
and key writes is such a list (R313). -/
def hostRun : List HostOp → State → Host.Outcome (State × List Reply) Fault Refusal
  | [], s => .next (s, [])
  | o :: os, s =>
    match hostOp o s with
    | .next (t, r) =>
      match hostRun os t with
      | .next (u, rs) => .next (u, r :: rs)
      | .fault f => .fault f
      | .refused q => .refused q
    | .fault f => .fault f
    | .refused q => .refused q

end Sys2Proof.Machine
end

