-- ==== Sys2Proof/Safety.lean ====
section
/-! DEFINITION. The terms that claims use: what every operation of the host keeps, what a run without a halt is (the
condition under which the halting decisions of the spec err safe), and how a run ends (rule R352). -/

namespace Sys2Proof.Machine

/-- Every framebuffer cell holds 0 or 1 (R32). -/
def State.fbBinary (s : State) : Prop := ∀ p : Fin 2048, s.pixel p = 0 ∨ s.pixel p = 1

/-- `halt_cause` is NONE exactly while `halted` is 0, and is a cause that halts otherwise (R36, R302). -/
def State.haltConsistent (s : State) : Prop :=
  (s.halted = false → s.haltCause = .none) ∧ (s.halted = true → s.haltCause.halts = true)

/-- PC is at most 0x1002 and every saved return address at most 0x1000 (R122, R147). -/
def State.pcBounded (s : State) : Prop :=
  s.pc.toNat ≤ 0x1002 ∧ ∀ k : Fin 16, (s.stack[k.val]).toNat ≤ 0x1000

/-- What every operation of the host keeps: canonical memory at addresses that exist (R50), pixels of 0 or 1 (R32),
and a consistent halt status (R36). -/
def State.Inv (s : State) : Prop := Memory.wf s.mem ∧ s.fbBinary ∧ s.haltConsistent

/-- The block runs: no halting condition has occurred (R36). A claim is safe under the spec's halting decisions when it
asks this of the run's end. -/
def State.running (s : State) : Prop := s.halted = false

/-- A parked state (R352): the block is not halted and the word at PC is a jump to PC itself. -/
def State.parked (s : State) : Prop :=
  s.halted = false ∧ s.fetchable = true ∧
    ∃ nnn : Addr, s.fetchWord = packNNN 0x1 nnn ∧ s.pc = nnn.setWidth 16

/-- The run has ended by itself (R352): halted or parked. -/
def State.ended (s : State) : Prop := s.halted = true ∨ s.parked

/-! ### Terms of the statements -/

/-- A word under `mask` equal to `pattern` decodes to the instruction that `mk` makes of its fields (R88): the
encoding line of an instruction's rule. -/
def Selects (mask pattern : Word) (mk : Word → Instr) : Prop :=
  ∀ op : Word, op &&& mask = pattern → decode op = .ok (mk op)

/-- The state that a halting condition of the instruction `i` leaves: nothing but the halt status and the report
changes, and PC stays at `trunc_16(a + 2)` (R302, R303). -/
def State.haltedBy (s : State) (c : Cause) (i : Instr) : State :=
  { s with
    halted := true
    haltCause := c
    report := some { cause := c, pc := s.pc - 2, opcode := some (encode i) } }

/-- Some set bit of the `n`-row sprite at I, drawn from (X, Y), falls on the cell `p`: bit 7 of each byte leftmost,
columns modulo 64, rows modulo 32 (R232, R234). -/
def State.spriteCovers (s : State) (X Y n : Nat) (p : Fin 2048) : Prop :=
  ∃ r c : Nat, r < n ∧ c < 8 ∧ (s.mem.read (s.idx.toNat + r)).getLsbD (7 - c) = true ∧
    p.val = (Y + r) % 32 * 64 + (X + c) % 64

/-- A draw of `n` rows touches only addresses that exist; with no row there is nothing to check (R59, R236). -/
def State.spriteInRange (s : State) (n : Nat) : Prop := n = 0 ∨ s.idx.toNat + n ≤ 4096

end Sys2Proof.Machine
end

