-- ==== Sys2Proof/Certificates/Slice0/Obligations.lean ====
section
/-! DEFINITION. The statements for the provers. Each docstring names the rule of spec/ it formalises; where a clause
rests on one of the spec's own decisions (D1 to D25 of 92_eei_decisions.md) or on an inference the spec marks as
derived, the docstring says which. -/

open Sys2Proof Sys2Proof.Machine

/-! ### Encoding -/

/-- R81, R88: no bit of an encoding is dropped: every instruction, at every value of every operand, is read back from
its word. -/
def Obligations.DecodeOfEncodeIsTheInstruction : Prop :=
  ∀ i : Instr, i.wellFormed = true → decode (encode i) = .ok i

/-- R82, R88: and every word that decodes is the word of the instruction read from it, unused fields included. -/
def Obligations.EncodeOfDecodeIsTheWord : Prop :=
  ∀ (op : Word) (i : Instr), decode op = .ok i → encode i = op

/-- R88: a word selects the row of the opcode map whose mask and pattern it matches, and no other. -/
def Obligations.DecodeFollowsTheOpcodeMap : Prop :=
  ∀ (op : Word) (r : OpcodeRow), r ∈ opcodeMap →
    (op &&& r.mask = r.pattern ↔ ∃ i : Instr, decode op = .ok i ∧ i.row = r.number)

/-- R90: a word that matches no row is an unknown opcode; every word of class 0xB and every 0nnn other than 0x?E0 and
0x?EE is one. -/
def Obligations.UnmatchedWordsAreUnknownOpcodes : Prop :=
  ∀ op : Word,
    (decode op = .error (.unknownOpcode op) ↔ ∀ r ∈ opcodeMap, op &&& r.mask ≠ r.pattern) ∧
    (fieldClass op = 0xB → decode op = .error (.unknownOpcode op)) ∧
    (fieldClass op = 0x0 → fieldNN op ≠ 0xE0 → fieldNN op ≠ 0xEE → decode op = .error (.unknownOpcode op))

/-- R88, with the example words of the instruction rules: words written out from the spec's encodings decode to the
instructions they stand for. -/
def Obligations.WrittenOutWordsDecode : Prop :=
  decode 0x01E0 = .ok (.cls 0x1) ∧ decode 0x2208 = .ok (.call 0x208) ∧ decode 0x332A = .ok (.seImm 0x3 0x2A) ∧
  decode 0x5127 = .ok (.seReg 0x1 0x2 0x7) ∧ decode 0x8014 = .ok (.addReg 0x0 0x1) ∧
  decode 0x820E = .ok (.shl 0x2 0x0) ∧ decode 0xA20A = .ok (.ldI 0x20A) ∧ decode 0xC30F = .ok (.rnd 0x3 0x0F) ∧
  decode 0xD015 = .ok (.drw 0x0 0x1 0x5) ∧ decode 0xE5A1 = .ok (.sknp 0x5) ∧ decode 0xF10A = .ok (.ldVxK 0x1) ∧
  decode 0xF255 = .ok (.ldMemVx 0x2) ∧ decode 0xB123 = .error (.unknownOpcode 0xB123)

/-- R80: there is one length, so the decoder takes exactly 2 bytes, the byte at the lower address high, and leaves the
rest. -/
def Obligations.DecoderTakesExactlyTwoBytes : Prop :=
  (∀ (b0 b1 : Byte) (rest : List Byte) (i : Instr), decode (wordOfBytes b0 b1) = .ok i →
    decodeBytes (b0 :: b1 :: rest) = .ok (i, rest)) ∧
  (∀ (bs rest : List Byte) (i : Instr), decodeBytes bs = .ok (i, rest) →
    ∃ b0 b1 : Byte, bs = b0 :: b1 :: rest ∧ decode (wordOfBytes b0 b1) = .ok i) ∧
  (∀ (i : Instr) (rest : List Byte), decode (encode i) = .ok i →
    decodeBytes (encodeBytes i ++ rest) = .ok (i, rest))

/-! ### The step -/

/-- R103: when the word at PC decodes to an instruction, the step is that instruction's rule, on the state in which PC
is `trunc_16(a + 2)` (R101). The report starts as none, since a step that raises nothing returns none (R107); that the
report stands in a field of the state is the model's choice (log entry 2). -/
def Obligations.StepRunsTheDecodedInstruction : Prop :=
  ∀ (s : State) (i : Instr), s.halted = false → s.pc.toNat + 1 < 4096 → decode s.fetchWord = .ok i →
    step s = exec i { s with pc := s.pc + 2, report := none }

/-- R60: the fetch is big-endian. -/
def Obligations.FetchIsBigEndian : Prop :=
  ∀ s : State, hiByte s.fetchWord = s.mem.read s.pc.toNat ∧ loByte s.fetchWord = s.mem.read (s.pc.toNat + 1)

/-- R100 by the spec's decision D7: a fetch that would touch 4096 or above halts with FETCH_RANGE; PC stays, and the
report holds no word. -/
def Obligations.FetchOutOfRangeHalts : Prop :=
  ∀ s : State, s.halted = false → 4096 ≤ s.pc.toNat + 1 →
    step s = .next { s with
      halted := true
      haltCause := .fetchRange
      report := some { cause := .fetchRange, pc := s.pc, opcode := none } }

/-- R104: an unknown opcode is reported; nothing but PC changes (R101), and the block goes on. The report's fields are
the spec's decision D13 (R302), and that it stands in a field of the state is the model's choice (log entry 2). -/
def Obligations.UnknownOpcodeIsReportedAndPassed : Prop :=
  ∀ s : State, s.halted = false → s.pc.toNat + 1 < 4096 → (∀ i : Instr, decode s.fetchWord ≠ .ok i) →
    step s = .next { s with
      pc := s.pc + 2
      report := some { cause := .unknownOpcode, pc := s.pc, opcode := some s.fetchWord } }

/-- R304 by the spec's decision D14: while halted a step changes nothing and returns no report. -/
def Obligations.HaltedStepDoesNothing : Prop :=
  ∀ s : State, s.halted = true → step s = .next { s with report := none }

/-- R106: a step always completes: from every state it answers a next state. -/
def Obligations.StepAlwaysCompletes : Prop :=
  ∀ s : State, ∃ t : State, step s = .next t

/-- R108: a step changes DT only through Fx15 and ST only through Fx18, and never changes K. -/
def Obligations.StepLeavesTimersAndKeys : Prop :=
  ∀ s t : State, step s = .next t →
    t.keys = s.keys ∧
    (t.dt = s.dt ∨ ∃ x : Nibble, decode s.fetchWord = .ok (.ldDtVx x)) ∧
    (t.st = s.st ∨ ∃ x : Nibble, decode s.fetchWord = .ok (.ldStVx x))

/-- R303, which the spec marks as derived: a step that halts the block leaves every piece of state as it was but
`halted`, `halt_cause`, the report, and PC, which is `a` for FETCH_RANGE and `trunc_16(a + 2)` otherwise. -/
def Obligations.HaltingIsPrecise : Prop :=
  ∀ s t : State, s.halted = false → step s = .next t → t.halted = true →
    t = { s with
      halted := true
      haltCause := t.haltCause
      report := t.report
      pc := if t.haltCause = .fetchRange then s.pc else s.pc + 2 } ∧
    t.haltCause.halts = true ∧ ∃ r : Report, t.report = some r ∧ r.cause = t.haltCause

/-- R302 and R306, the latter marked as derived by the spec: what a report holds, and which condition each step can
raise, in the order of R306. -/
def Obligations.ReportNamesTheConditionRaised : Prop :=
  ∀ (s t : State) (r : Report), s.halted = false → step s = .next t → t.report = some r →
    r.pc = s.pc ∧ (r.opcode = if s.fetchable then some s.fetchWord else none) ∧
    (r.cause = .fetchRange ↔ s.fetchable = false) ∧
    (r.cause = .unknownOpcode ↔ s.fetchable = true ∧ ∀ i : Instr, decode s.fetchWord ≠ .ok i) ∧
    (r.cause = .stackOverflow → s.sp.val = 16 ∧ ∃ nnn : Addr, decode s.fetchWord = .ok (.call nnn)) ∧
    (r.cause = .stackUnderflow → s.sp.val = 0 ∧ ∃ x : Nibble, decode s.fetchWord = .ok (.ret x)) ∧
    (r.cause = .memRange → ∃ x y n : Nibble, decode s.fetchWord = .ok (.drw x y n) ∨
      decode s.fetchWord = .ok (.ldBVx x) ∨ decode s.fetchWord = .ok (.ldMemVx x) ∨
      decode s.fetchWord = .ok (.ldVxMem x)) ∧
    (r.cause = .keyRange → ∃ x : Nibble, decode s.fetchWord = .ok (.skp x) ∨ decode s.fetchWord = .ok (.sknp x)) ∧
    r.cause ≠ .none

/-! ### Who writes what, over all instructions -/

/-- R20: sixteen registers, none hard-wired, none shared: a write of one is read back from it and from no other, and
touches no other state. -/
def Obligations.RegisterWritesReadBack : Prop :=
  ∀ (s : State) (x y : Nibble) (b : Byte),
    (s.setV x b).getV y = (if x = y then b else s.getV y) ∧ s.setV x b = { s with v := (s.setV x b).v }

/-- R21: VF is written as a side effect only by the flag group (8xy4, 8xy5, 8xy6, 8xy7, 8xyE) and by Dxyn, which stands
outside that group (R167); every other instruction leaves it alone unless its destination field names register 0xF (or
it is FF65, which loads it). -/
def Obligations.OnlyTheFlagGroupWritesVFUnnamed : Prop :=
  ∀ (i : Instr) (s t : State), exec i s = .next t → t.getV 0xF ≠ s.getV 0xF →
    (∃ x y n : Nibble, i = .addReg x y ∨ i = .sub x y ∨ i = .shr x y ∨ i = .subn x y ∨ i = .shl x y ∨
      i = .drw x y n) ∨
    (∃ (y : Nibble) (nn : Byte), i = .ldImm 0xF nn ∨ i = .addImm 0xF nn ∨ i = .ldReg 0xF y ∨ i = .or 0xF y ∨
      i = .and 0xF y ∨ i = .xor 0xF y ∨ i = .rnd 0xF nn ∨ i = .ldVxDt 0xF ∨ i = .ldVxK 0xF ∨ i = .ldVxMem 0xF)

/-- R26: SP is written only by 2nnn (plus 1) and 00EE (minus 1). With it, the stack's entries: only 2nnn writes one,
at the old SP (R27, R120). -/
def Obligations.OnlyCallAndReturnMoveTheStack : Prop :=
  ∀ (i : Instr) (s t : State), exec i s = .next t →
    (t.sp = s.sp ∧ t.stack = s.stack) ∨
    (∃ nnn : Addr, i = .call nnn ∧ t.sp.val = s.sp.val + 1 ∧
      ∀ k : Fin 16, k.val ≠ s.sp.val → t.stack[k.val] = s.stack[k.val]) ∨
    (∃ x : Nibble, i = .ret x ∧ t.sp.val + 1 = s.sp.val ∧ t.stack = s.stack)

/-- R23, R208: I is written by Annn, Fx1E, Fx29, Fx55 and Fx65 and by no other instruction. -/
def Obligations.OnlyFiveInstructionsWriteI : Prop :=
  ∀ (i : Instr) (s t : State), exec i s = .next t → t.idx ≠ s.idx →
    (∃ nnn : Addr, i = .ldI nnn) ∨
    (∃ x : Nibble, i = .addIVx x ∨ i = .ldFVx x ∨ i = .ldMemVx x ∨ i = .ldVxMem x)

/-- R231, R237: only 00E0 and Dxyn change the framebuffer, and Dxyn alone can change it and VF together. -/
def Obligations.OnlyClearAndDrawWriteTheFramebuffer : Prop :=
  ∀ (i : Instr) (s t : State), exec i s = .next t → t.fb ≠ s.fb →
    (∃ x y n : Nibble, i = .drw x y n) ∨ ((∃ x : Nibble, i = .cls x) ∧ t.getV 0xF = s.getV 0xF)

/-- R56, which the spec marks as derived: only Fx33 and Fx55 write memory, the first at I to I + 2, the second at I to
I + x; every other byte of memory reads as before. -/
def Obligations.OnlyTheTwoStoresWriteMemory : Prop :=
  ∀ (i : Instr) (s t : State) (a : Nat), Memory.wf s.mem → exec i s = .next t → t.mem.read a ≠ s.mem.read a →
    (∃ x : Nibble, i = .ldBVx x ∧ s.dataAddr 0 ≤ a ∧ a ≤ s.dataAddr 2) ∨
    (∃ x : Nibble, i = .ldMemVx x ∧ s.dataAddr 0 ≤ a ∧ a ≤ s.dataAddr x.toNat)

/-! ### Control flow -/

/-- R123: JP. -/
def Obligations.JumpGoesToItsAddress : Prop :=
  Selects 0xF000 0x1000 (fun op => .jp (fieldNNN op)) ∧
  ∀ (nnn : Addr) (s : State), exec (.jp nnn) s = .next { s with pc := nnn.setWidth 16 }

/-- R122 for SP below 16: CALL pushes the advanced PC, raises SP by one and goes to `nnn`; every other entry and every
other piece of state is unchanged. -/
def Obligations.CallPushesTheReturnAddress : Prop :=
  Selects 0xF000 0x2000 (fun op => .call (fieldNNN op)) ∧
  ∀ (nnn : Addr) (s : State), s.sp.val < 16 →
    ∃ t : State, exec (.call nnn) s = .next t ∧ t.sp.val = s.sp.val + 1 ∧ t.pc = nnn.setWidth 16 ∧
      (∀ k : Fin 16, t.stack[k.val] = if k.val = s.sp.val then s.pc else s.stack[k.val]) ∧
      t = { s with sp := t.sp, stack := t.stack, pc := t.pc }

/-- R121 for SP above 0: RET lowers SP by one and goes to the entry there, whatever the `x` field; the entries keep
their values. -/
def Obligations.ReturnPopsTheReturnAddress : Prop :=
  Selects 0xF0FF 0x00EE (fun op => .ret (fieldX op)) ∧
  ∀ (x : Nibble) (s : State) (k : Fin 16), s.sp.val = k.val + 1 →
    ∃ t : State, exec (.ret x) s = .next t ∧ t.sp.val = k.val ∧ t.pc = s.stack[k.val] ∧
      t = { s with sp := t.sp, pc := t.pc }

/-- R125, which the spec marks as derived: after a CALL, a RET executed with SP and the saved entry as the CALL left
them restores PC to the address after the CALL, and SP. -/
def Obligations.ReturnUndoesCall : Prop :=
  ∀ (nnn : Addr) (s : State) (k : Fin 16), s.sp.val = k.val →
    ∃ t : State, exec (.call nnn) s = .next t ∧
      ∀ (x : Nibble) (u : State), u.sp = t.sp → u.stack[k.val] = t.stack[k.val] →
        ∃ w : State, exec (.ret x) u = .next w ∧ w.pc = s.pc ∧ w.sp = s.sp

/-- R121, R122, R145, R146, R59, by the spec's decisions D5, D9 and D6: where each instruction halts the block, with
its own state otherwise untouched. -/
def Obligations.InstructionsHaltOnTheirConditions : Prop :=
  ∀ (s : State) (x y n : Nibble) (nnn : Addr),
    (s.sp.val = 16 → exec (.call nnn) s = .next (s.haltedBy .stackOverflow (.call nnn))) ∧
    (s.sp.val = 0 → exec (.ret x) s = .next (s.haltedBy .stackUnderflow (.ret x))) ∧
    ((s.getV x).toNat > 0xF → exec (.skp x) s = .next (s.haltedBy .keyRange (.skp x))) ∧
    ((s.getV x).toNat > 0xF → exec (.sknp x) s = .next (s.haltedBy .keyRange (.sknp x))) ∧
    (s.idx.toNat + 2 ≥ 4096 → exec (.ldBVx x) s = .next (s.haltedBy .memRange (.ldBVx x))) ∧
    (s.idx.toNat + x.toNat ≥ 4096 → exec (.ldMemVx x) s = .next (s.haltedBy .memRange (.ldMemVx x))) ∧
    (s.idx.toNat + x.toNat ≥ 4096 → exec (.ldVxMem x) s = .next (s.haltedBy .memRange (.ldVxMem x))) ∧
    (n ≠ 0 → s.idx.toNat + n.toNat - 1 ≥ 4096 → exec (.drw x y n) s = .next (s.haltedBy .memRange (.drw x y n)))

/-! ### Skips -/

/-- R141, R142, R143, R144: the four skips on registers, for every `n` of the last two. -/
def Obligations.RegisterSkipsSkip : Prop :=
  (Selects 0xF000 0x3000 (fun op => .seImm (fieldX op) (fieldNN op)) ∧
   Selects 0xF000 0x4000 (fun op => .sneImm (fieldX op) (fieldNN op)) ∧
   Selects 0xF000 0x5000 (fun op => .seReg (fieldX op) (fieldY op) (fieldN op)) ∧
   Selects 0xF000 0x9000 (fun op => .sneReg (fieldX op) (fieldY op) (fieldN op))) ∧
  ∀ (s : State) (x y n : Nibble) (nn : Byte),
    exec (.seImm x nn) s = .next { s with pc := if s.getV x = nn then s.pc + 2 else s.pc } ∧
    exec (.sneImm x nn) s = .next { s with pc := if s.getV x = nn then s.pc else s.pc + 2 } ∧
    exec (.seReg x y n) s = .next { s with pc := if s.getV x = s.getV y then s.pc + 2 else s.pc } ∧
    exec (.sneReg x y n) s = .next { s with pc := if s.getV x = s.getV y then s.pc else s.pc + 2 }

/-- R145 and R146 where V[x] is a key index: SKP skips when that key is down, SKNP when it is not. -/
def Obligations.KeySkipsSkip : Prop :=
  (Selects 0xF0FF 0xE09E (fun op => .skp (fieldX op)) ∧ Selects 0xF0FF 0xE0A1 (fun op => .sknp (fieldX op))) ∧
  ∀ (s : State) (x : Nibble) (k : Fin 16), (s.getV x).toNat = k.val →
    exec (.skp x) s = .next { s with pc := if s.keys[k.val] then s.pc + 2 else s.pc } ∧
    exec (.sknp x) s = .next { s with pc := if s.keys[k.val] then s.pc else s.pc + 2 }

/-! ### Loads, arithmetic, logic, shifts, random -/

/-- R161, R163, R164, R165, R166 (and R160's effect): V[x] takes the value, sums modulo 256, and nothing else changes,
VF included. -/
def Obligations.LoadsAndLogicWriteTheirRegister : Prop :=
  (Selects 0xF000 0x6000 (fun op => .ldImm (fieldX op) (fieldNN op)) ∧
   Selects 0xF000 0x7000 (fun op => .addImm (fieldX op) (fieldNN op)) ∧
   Selects 0xF00F 0x8000 (fun op => .ldReg (fieldX op) (fieldY op)) ∧
   Selects 0xF00F 0x8001 (fun op => .or (fieldX op) (fieldY op)) ∧
   Selects 0xF00F 0x8002 (fun op => .and (fieldX op) (fieldY op)) ∧
   Selects 0xF00F 0x8003 (fun op => .xor (fieldX op) (fieldY op))) ∧
  ∀ (s : State) (x y : Nibble) (nn : Byte),
    exec (.ldImm x nn) s = .next (s.setV x nn) ∧
    exec (.addImm x nn) s = .next (s.setV x (BitVec.ofNat 8 (((s.getV x).toNat + nn.toNat) % 256))) ∧
    exec (.ldReg x y) s = .next (s.setV x (s.getV y)) ∧
    exec (.or x y) s = .next (s.setV x (s.getV x ||| s.getV y)) ∧
    exec (.and x y) s = .next (s.setV x (s.getV x &&& s.getV y)) ∧
    exec (.xor x y) s = .next (s.setV x (s.getV x ^^^ s.getV y))

/-- R169: for x other than 0xF the carry of 8xy4 is 1 exactly when the exact sum of the operands, as they were before,
exceeds 255, and 0 otherwise; with it the whole effect. What x = 0xF leaves is in FlagGroupOnVFFollowsTheTable. -/
def Obligations.AddRegisterCarriesIntoVF : Prop :=
  Selects 0xF00F 0x8004 (fun op => .addReg (fieldX op) (fieldY op)) ∧
  ∀ (s : State) (x y : Nibble), x ≠ 0xF → ∃ t : State,
    exec (.addReg x y) s = .next t ∧
    t = (s.setV 0xF (if (s.getV x).toNat + (s.getV y).toNat > 255 then 1 else 0)).setV x
      (BitVec.ofNat 8 (((s.getV x).toNat + (s.getV y).toNat) % 256)) ∧
    (t.getV 0xF = 1 ↔ (s.getV x).toNat + (s.getV y).toNat > 255) ∧
    (t.getV 0xF = 0 ↔ ¬ (s.getV x).toNat + (s.getV y).toNat > 255)

/-- R170, R171: the two subtractions, statement by statement: VF first, from the operands as they were; then V[x], from
the registers as that write left them. Every x and y. For x or y equal to 0xF, that the value is read after the write
of VF and written last is the spec's decision D3 (R14, R167; log entry 8). -/
def Obligations.SubtractionsFlagNoBorrow : Prop :=
  (Selects 0xF00F 0x8005 (fun op => .sub (fieldX op) (fieldY op)) ∧
   Selects 0xF00F 0x8007 (fun op => .subn (fieldX op) (fieldY op))) ∧
  ∀ (s f : State) (x y : Nibble),
    (f = s.setV 0xF (if (s.getV x).toNat ≥ (s.getV y).toNat then 1 else 0) →
      exec (.sub x y) s = .next
        (f.setV x (BitVec.ofNat 8 (((f.getV x).toNat + 256 - (f.getV y).toNat) % 256)))) ∧
    (f = s.setV 0xF (if (s.getV y).toNat ≥ (s.getV x).toNat then 1 else 0) →
      exec (.subn x y) s = .next
        (f.setV x (BitVec.ofNat 8 (((f.getV y).toNat + 256 - (f.getV x).toNat) % 256))))

/-- R172, R173, R174: the two shifts, statement by statement, for every x, and for every y alike: V[y] is not used. For
x equal to 0xF, that the flag just written is what is shifted is the spec's decision D3 (R14, R167; log entry 8). -/
def Obligations.ShiftsMoveVxByOneBit : Prop :=
  (Selects 0xF00F 0x8006 (fun op => .shr (fieldX op) (fieldY op)) ∧
   Selects 0xF00F 0x800E (fun op => .shl (fieldX op) (fieldY op))) ∧
  ∀ (s f : State) (x y : Nibble),
    (f = s.setV 0xF (BitVec.ofNat 8 ((s.getV x).toNat % 2)) →
      exec (.shr x y) s = .next (f.setV x (BitVec.ofNat 8 ((f.getV x).toNat / 2)))) ∧
    (f = s.setV 0xF (BitVec.ofNat 8 ((s.getV x).toNat / 128)) →
      exec (.shl x y) s = .next (f.setV x (BitVec.ofNat 8 ((f.getV x).toNat * 2 % 256))))

/-- R167: with neither x nor y equal to 0xF the order of the two writes does not matter, and V[x] and VF hold the usual
results of the operands as they were. -/
def Obligations.FlagGroupAwayFromVF : Prop :=
  ∀ (s : State) (x y : Nibble) (v w : Nat), x ≠ 0xF → y ≠ 0xF → v = (s.getV x).toNat → w = (s.getV y).toNat →
    ∃ t1 t2 t3 t4 t5 : State,
      exec (.addReg x y) s = .next t1 ∧ (t1.getV x).toNat = (v + w) % 256 ∧ (t1.getV 0xF).toNat = (v + w) / 256 ∧
      exec (.sub x y) s = .next t2 ∧ (t2.getV x).toNat = (v + 256 - w) % 256 ∧
        (t2.getV 0xF).toNat = (if v < w then 0 else 1) ∧
      exec (.shr x y) s = .next t3 ∧ (t3.getV x).toNat = v / 2 ∧ (t3.getV 0xF).toNat = v % 2 ∧
      exec (.subn x y) s = .next t4 ∧ (t4.getV x).toNat = (w + 256 - v) % 256 ∧
        (t4.getV 0xF).toNat = (if w < v then 0 else 1) ∧
      exec (.shl x y) s = .next t5 ∧ (t5.getV x).toNat = 2 * v % 256 ∧ (t5.getV 0xF).toNat = v / 128

/-- R175, which the spec marks as derived, under its decision D3: the results of the flag group when x or y is 0xF, row
by row. -/
def Obligations.FlagGroupOnVFFollowsTheTable : Prop :=
  ∀ (s : State) (x y : Nibble) (v w f : Nat), x ≠ 0xF → y ≠ 0xF →
    v = (s.getV x).toNat → w = (s.getV y).toNat → f = (s.getV 0xF).toNat →
    (∃ t : State, exec (.addReg 0xF y) s = .next t ∧ (t.getV 0xF).toNat = (f + w) % 256) ∧
    (∃ t : State, exec (.addReg x 0xF) s = .next t ∧ (t.getV x).toNat = (v + f) % 256 ∧
      (t.getV 0xF).toNat = if v + f > 255 then 1 else 0) ∧
    (∃ t : State, exec (.addReg 0xF 0xF) s = .next t ∧ (t.getV 0xF).toNat = 2 * f % 256) ∧
    (∃ t : State, exec (.sub 0xF y) s = .next t ∧
      (t.getV 0xF).toNat = ((if f ≥ w then 1 else 0) + 256 - w) % 256) ∧
    (∃ t : State, exec (.sub x 0xF) s = .next t ∧
      (t.getV x).toNat = (v + 256 - if v ≥ f then 1 else 0) % 256 ∧
      (t.getV 0xF).toNat = if v ≥ f then 1 else 0) ∧
    (∃ t : State, exec (.sub 0xF 0xF) s = .next t ∧ (t.getV 0xF).toNat = 0) ∧
    (∃ t : State, exec (.subn 0xF y) s = .next t ∧
      (t.getV 0xF).toNat = (w + 256 - if w ≥ f then 1 else 0) % 256) ∧
    (∃ t : State, exec (.subn x 0xF) s = .next t ∧
      (t.getV x).toNat = ((if f ≥ v then 1 else 0) + 256 - v) % 256 ∧
      (t.getV 0xF).toNat = if f ≥ v then 1 else 0) ∧
    (∃ t : State, exec (.subn 0xF 0xF) s = .next t ∧ (t.getV 0xF).toNat = 0) ∧
    (∃ t : State, exec (.shr 0xF y) s = .next t ∧ (t.getV 0xF).toNat = 0) ∧
    (∃ t : State, exec (.shl 0xF y) s = .next t ∧ (t.getV 0xF).toNat = 2 * (f / 128))

/-- R176 by the spec's decision D18: V[x] gets the masked random byte, whatever the byte is. The byte is the free value
`Config.rnd` at the count of draws (log entry 1), and the count goes up by one: the statement rests on no value of
either. -/
def Obligations.RandomByteIsMasked : Prop :=
  Selects 0xF000 0xC000 (fun op => .rnd (fieldX op) (fieldNN op)) ∧
  ∀ (s : State) (x : Nibble) (nn : Byte), ∃ r : Byte, r = Config.rnd s.draws ∧
    exec (.rnd x nn) s = .next ((s.setV x (r &&& nn)).setDraws (s.draws + 1))

/-! ### Index register and data memory -/

/-- R200, R202: I takes `nnn`; I takes five times the whole of V[x]. -/
def Obligations.IndexLoads : Prop :=
  (Selects 0xF000 0xA000 (fun op => .ldI (fieldNNN op)) ∧ Selects 0xF0FF 0xF029 (fun op => .ldFVx (fieldX op))) ∧
  ∀ (s : State) (nnn : Addr) (x : Nibble),
    exec (.ldI nnn) s = .next { s with idx := nnn.setWidth 16 } ∧
    exec (.ldFVx x) s = .next { s with idx := BitVec.ofNat 16 ((s.getV x).toNat * 5) }

/-- R201, with the wrap at 16 bits by the spec's decision D22: no flag. -/
def Obligations.IndexAddWrapsAtSixteenBits : Prop :=
  Selects 0xF0FF 0xF01E (fun op => .addIVx (fieldX op)) ∧
  ∀ (s : State) (x : Nibble),
    exec (.addIVx x) s = .next { s with idx := BitVec.ofNat 16 ((s.idx.toNat + (s.getV x).toNat) % 65536) }

/-- R204, R203 where the three addresses exist: hundreds, tens and units go to I, I + 1 and I + 2; every other byte, I
and every other piece of state are unchanged. -/
def Obligations.DecimalDigitsAreStored : Prop :=
  Selects 0xF0FF 0xF033 (fun op => .ldBVx (fieldX op)) ∧
  ∀ (s : State) (x : Nibble), Memory.wf s.mem → s.idx.toNat + 2 < 4096 →
    ∃ t : State, exec (.ldBVx x) s = .next t ∧ t = { s with mem := t.mem } ∧
      (t.mem.read (s.dataAddr 0)).toNat = (s.getV x).toNat / 100 ∧
      (t.mem.read (s.dataAddr 1)).toNat = (s.getV x).toNat / 10 % 10 ∧
      (t.mem.read (s.dataAddr 2)).toNat = (s.getV x).toNat % 10 ∧
      ∀ a : Nat, (a < s.dataAddr 0 ∨ s.dataAddr 2 < a) → t.mem.read a = s.mem.read a

/-- R205, R207 (decision D11) where the addresses exist: V[0] to V[x] go to I to I + x, then I advances past them;
every other byte and every other piece of state are unchanged. -/
def Obligations.BulkStoreWritesTheRun : Prop :=
  Selects 0xF0FF 0xF055 (fun op => .ldMemVx (fieldX op)) ∧
  ∀ (s : State) (x : Nibble), Memory.wf s.mem → s.idx.toNat + x.toNat < 4096 →
    ∃ t : State, exec (.ldMemVx x) s = .next t ∧ t = { s with mem := t.mem, idx := t.idx } ∧
      t.idx = s.idx + BitVec.ofNat 16 (x.toNat + 1) ∧
      (∀ k : Nibble, k.toNat ≤ x.toNat → t.mem.read (s.dataAddr k.toNat) = s.getV k) ∧
      ∀ a : Nat, (a < s.dataAddr 0 ∨ s.dataAddr x.toNat < a) → t.mem.read a = s.mem.read a

/-- R206, R207 (decision D11) where the addresses exist: V[0] to V[x] come from I to I + x, then I advances past them;
the registers above x and every other piece of state are unchanged. -/
def Obligations.BulkLoadReadsTheRun : Prop :=
  Selects 0xF0FF 0xF065 (fun op => .ldVxMem (fieldX op)) ∧
  ∀ (s : State) (x : Nibble), s.idx.toNat + x.toNat < 4096 →
    ∃ t : State, exec (.ldVxMem x) s = .next t ∧ t = { s with v := t.v, idx := t.idx } ∧
      t.idx = s.idx + BitVec.ofNat 16 (x.toNat + 1) ∧
      ∀ k : Nibble, t.getV k = if k.toNat ≤ x.toNat then s.mem.read (s.dataAddr k.toNat) else s.getV k

/-- R208: Fx55 and Fx65 leave I incremented by x + 1 (where they complete); Fx33 and Dxyn leave I unchanged. -/
def Obligations.BulkMovesAdvanceTheIndex : Prop :=
  ∀ (s t : State) (x y n : Nibble),
    (s.idx.toNat + x.toNat < 4096 → (exec (.ldMemVx x) s = .next t ∨ exec (.ldVxMem x) s = .next t) →
      t.idx.toNat = s.idx.toNat + x.toNat + 1) ∧
    ((exec (.ldBVx x) s = .next t ∨ exec (.drw x y n) s = .next t) → t.idx = s.idx)

/-! ### Display -/

/-- R230: CLS, for every `x`: every cell becomes 0, and nothing else changes. -/
def Obligations.ClearZeroesEveryCell : Prop :=
  Selects 0xF0FF 0x00E0 (fun op => .cls (fieldX op)) ∧
  ∀ (s : State) (x : Nibble), ∃ t : State, exec (.cls x) s = .next t ∧ t = { s with fb := t.fb } ∧
    ∀ p : Fin 2048, t.pixel p = 0

/-- R232, R234, R236, R238, where the rows exist (decisions D4, D6): from the coordinates read before VF is written,
each cell that a set bit of the sprite falls on is XORed with 1 and no other cell changes; VF becomes 1 if one of them
held 1, and 0 otherwise; nothing else changes. -/
def Obligations.DrawTogglesTheSpritesCells : Prop :=
  Selects 0xF000 0xD000 (fun op => .drw (fieldX op) (fieldY op) (fieldN op)) ∧
  ∀ (s : State) (x y n : Nibble), s.spriteInRange n.toNat →
    ∃ t : State, exec (.drw x y n) s = .next t ∧ t = { s with v := t.v, fb := t.fb } ∧
      (∀ p : Fin 2048, s.spriteCovers (s.getV x).toNat (s.getV y).toNat n.toNat p → t.pixel p = s.pixel p ^^^ 1) ∧
      (∀ p : Fin 2048, ¬ s.spriteCovers (s.getV x).toNat (s.getV y).toNat n.toNat p → t.pixel p = s.pixel p) ∧
      ((∃ p : Fin 2048, s.spriteCovers (s.getV x).toNat (s.getV y).toNat n.toNat p ∧ s.pixel p = 1) →
        t.getV 0xF = 1) ∧
      ((¬ ∃ p : Fin 2048, s.spriteCovers (s.getV x).toNat (s.getV y).toNat n.toNat p ∧ s.pixel p = 1) →
        t.getV 0xF = 0) ∧
      ∀ r : Nibble, r ≠ 0xF → t.getV r = s.getV r

/-- R233: VF after a draw is 1 exactly when some set bit met a cell that held 1, and 0 otherwise; and drawing the same
sprite twice at the same coordinates restores the framebuffer, the second draw setting VF to 1 where the first set
some cells and found none set. With x or y equal to 0xF the first draw changes a coordinate of the second;
DrawTogglesTheSpritesCells states what such a draw does. -/
def Obligations.CollisionIsExactAndDrawingTwiceCancels : Prop :=
  ∀ (s t : State) (x y n : Nibble), x ≠ 0xF → y ≠ 0xF → s.spriteInRange n.toNat → exec (.drw x y n) s = .next t →
    (t.getV 0xF = 1 ↔
      ∃ p : Fin 2048, s.spriteCovers (s.getV x).toNat (s.getV y).toNat n.toNat p ∧ s.pixel p = 1) ∧
    (t.getV 0xF = 0 ↔
      ¬ ∃ p : Fin 2048, s.spriteCovers (s.getV x).toNat (s.getV y).toNat n.toNat p ∧ s.pixel p = 1) ∧
    ∃ u : State, exec (.drw x y n) t = .next u ∧ u.fb = s.fb ∧
      ((∃ p : Fin 2048, s.spriteCovers (s.getV x).toNat (s.getV y).toNat n.toNat p) →
       (∀ p : Fin 2048, s.spriteCovers (s.getV x).toNat (s.getV y).toNat n.toNat p → s.pixel p = 0) →
        u.getV 0xF = 1)

/-- R235, which the spec marks as derived: the cells of one draw are distinct, so each is toggled at most once. -/
def Obligations.SpriteCellsAreDistinct : Prop :=
  ∀ (X Y : Nat) (rows : List Byte), rows.length ≤ 15 → (spriteCells X Y rows).Nodup

/-! ### Timers and keys -/

/-- R250, R251, R252: the three timer instructions. -/
def Obligations.TimerInstructionsMoveBytes : Prop :=
  (Selects 0xF0FF 0xF007 (fun op => .ldVxDt (fieldX op)) ∧ Selects 0xF0FF 0xF015 (fun op => .ldDtVx (fieldX op)) ∧
   Selects 0xF0FF 0xF018 (fun op => .ldStVx (fieldX op))) ∧
  ∀ (s : State) (x : Nibble),
    exec (.ldVxDt x) s = .next (s.setV x s.dt) ∧
    exec (.ldDtVx x) s = .next { s with dt := s.getV x } ∧
    exec (.ldStVx x) s = .next { s with st := s.getV x }

/-- R254, with the lowest key by the spec's decision D10 (R253): with no key down PC goes back to the instruction, so
that the whole step leaves the state as it was (R255); else V[x] gets the number of the lowest key that is down. -/
def Obligations.KeyWaitRewindsOrTakesTheLowestKey : Prop :=
  Selects 0xF0FF 0xF00A (fun op => .ldVxK (fieldX op)) ∧
  ∀ (s : State) (x : Nibble),
    ((∀ k : Fin 16, s.keys[k.val] = false) → exec (.ldVxK x) s = .next { s with pc := s.pc - 2 }) ∧
    (∀ k : Fin 16, s.keys[k.val] = true → (∀ j : Fin 16, j.val < k.val → s.keys[j.val] = false) →
      exec (.ldVxK x) s = .next (s.setV x (BitVec.ofNat 8 k.val))) ∧
    (s.halted = false → s.pc.toNat + 1 < 4096 → decode s.fetchWord = .ok (.ldVxK x) →
      (∀ k : Fin 16, s.keys[k.val] = false) → step s = .next { s with report := none })

/-! ### Frames -/

/-- R21, R22: what the register instructions leave unchanged: every register but V[x] (and VF for the flag group), all
of memory, and every other piece of state; Cxnn also counts its draw (log entry 1). -/
def Obligations.RegisterInstructionsFrame : Prop :=
  ∀ (s t : State) (i : Instr) (x y : Nibble) (nn : Byte), exec i s = .next t →
    ((i = .ldImm x nn ∨ i = .addImm x nn ∨ i = .ldReg x y ∨ i = .or x y ∨ i = .and x y ∨ i = .xor x y ∨
        i = .ldVxDt x) →
      (∀ r : Nibble, r ≠ x → t.getV r = s.getV r) ∧ (∀ a : Nat, t.mem.read a = s.mem.read a) ∧
        t = { s with v := t.v }) ∧
    ((i = .addReg x y ∨ i = .sub x y ∨ i = .shr x y ∨ i = .subn x y ∨ i = .shl x y) →
      (∀ r : Nibble, r ≠ x → r ≠ 0xF → t.getV r = s.getV r) ∧ (∀ a : Nat, t.mem.read a = s.mem.read a) ∧
        t = { s with v := t.v }) ∧
    (i = .rnd x nn →
      (∀ r : Nibble, r ≠ x → t.getV r = s.getV r) ∧ (∀ a : Nat, t.mem.read a = s.mem.read a) ∧
        t = { s with v := t.v, draws := s.draws + 1 })

/-- R23, R124, R140, R250 to R254: what the instructions that write PC, I, a timer or the stack leave unchanged: every
register (but V[x] for Fx0A), all of memory, and every piece of state not named. The halt status and the report change
only where the instruction raises its condition. -/
def Obligations.ControlIndexAndTimerFrame : Prop :=
  ∀ (s t : State) (i : Instr) (x y n : Nibble) (nn : Byte) (nnn : Addr), exec i s = .next t →
    ((i = .jp nnn ∨ i = .seImm x nn ∨ i = .sneImm x nn ∨ i = .seReg x y n ∨ i = .sneReg x y n) →
      t = { s with pc := t.pc } ∧ (∀ a : Nat, t.mem.read a = s.mem.read a)) ∧
    ((i = .skp x ∨ i = .sknp x) →
      t = { s with pc := t.pc, halted := t.halted, haltCause := t.haltCause, report := t.report } ∧
        (∀ a : Nat, t.mem.read a = s.mem.read a)) ∧
    ((i = .call nnn ∨ i = .ret x) →
      t = { s with
        pc := t.pc, sp := t.sp, stack := t.stack, halted := t.halted, haltCause := t.haltCause, report := t.report } ∧
        (∀ a : Nat, t.mem.read a = s.mem.read a)) ∧
    ((i = .ldI nnn ∨ i = .addIVx x ∨ i = .ldFVx x) →
      t = { s with idx := t.idx } ∧ (∀ a : Nat, t.mem.read a = s.mem.read a)) ∧
    (i = .ldDtVx x → t = { s with dt := t.dt } ∧ (∀ a : Nat, t.mem.read a = s.mem.read a)) ∧
    (i = .ldStVx x → t = { s with st := t.st } ∧ (∀ a : Nat, t.mem.read a = s.mem.read a)) ∧
    (i = .ldVxK x → t = { s with v := t.v, pc := t.pc } ∧ (∀ r : Nibble, r ≠ x → t.getV r = s.getV r) ∧
      (∀ a : Nat, t.mem.read a = s.mem.read a))

/-- R56, R208, R231: what the memory and display instructions leave unchanged, in whatever way they end. The bytes that
Fx33 and Fx55 store to are I to I + 2 and I to I + x (`State.dataAddr`). -/
def Obligations.MemoryAndDisplayFrame : Prop :=
  ∀ (s t : State) (i : Instr) (x y n : Nibble), Memory.wf s.mem → exec i s = .next t →
    (i = .ldBVx x →
      t = { s with mem := t.mem, halted := t.halted, haltCause := t.haltCause, report := t.report } ∧
        ∀ a : Nat, (a < s.dataAddr 0 ∨ s.dataAddr 2 < a) → t.mem.read a = s.mem.read a) ∧
    (i = .ldMemVx x →
      t = { s with
        mem := t.mem, idx := t.idx, halted := t.halted, haltCause := t.haltCause, report := t.report } ∧
        ∀ a : Nat, (a < s.dataAddr 0 ∨ s.dataAddr x.toNat < a) → t.mem.read a = s.mem.read a) ∧
    (i = .ldVxMem x →
      t = { s with
        v := t.v, idx := t.idx, halted := t.halted, haltCause := t.haltCause, report := t.report } ∧
        (∀ r : Nibble, x.toNat < r.toNat → t.getV r = s.getV r) ∧ ∀ a : Nat, t.mem.read a = s.mem.read a) ∧
    (i = .drw x y n →
      t = { s with
        v := t.v, fb := t.fb, halted := t.halted, haltCause := t.haltCause, report := t.report } ∧
        (∀ r : Nibble, r ≠ 0xF → t.getV r = s.getV r) ∧ ∀ a : Nat, t.mem.read a = s.mem.read a) ∧
    (i = .cls x → t = { s with fb := t.fb } ∧ ∀ a : Nat, t.mem.read a = s.mem.read a)

/-! ### The host's operations -/

/-- R312: the tick lowers each timer by one, independently, floored at 0, and touches nothing else. -/
def Obligations.TickFloorsAtZero : Prop :=
  ∀ s : State, hostOp .tick s =
    .next ({ s with dt := BitVec.ofNat 8 (s.dt.toNat - 1), st := BitVec.ofNat 8 (s.st.toNat - 1) }, .nothing)

/-- R318: `set_keys` sets every K[i] to bit i of its argument, and nothing else. -/
def Obligations.SetKeysWritesTheWholeRegister : Prop :=
  ∀ (s : State) (k : BitVec 16), ∃ t : State, hostOp (.setKeys k) s = .next (t, .nothing) ∧
    t = { s with keys := t.keys } ∧ ∀ i : Fin 16, t.keys[i.val] = k.getLsbD i.val

/-- R316, R36, and R314 by the spec's decision D23: the three reads change nothing; the snapshot lists the 2048 cells
row by row, cell y*64 + x for column x of row y. -/
def Obligations.HostReadsChangeNothing : Prop :=
  ∀ s : State,
    hostOp .readSound s = .next (s, .sound (decide (s.st.toNat ≠ 0))) ∧
    hostOp .readStatus s = .next (s, .status s.halted s.haltCause) ∧
    ∃ cells : List Byte, hostOp .readFramebuffer s = .next (s, .framebuffer cells) ∧ cells.length = 2048 ∧
      ∀ x y : Nat, x < 64 → y < 32 → cells.getD (y * 64 + x) 0 = s.pixel (fbCell x y)

/-- R344, the oversized case by the spec's decision D24: an image of at most 3584 bytes goes to 0x200 up and nothing
else changes; a longer one is reported and writes nothing. -/
def Obligations.LoadPlacesTheImage : Prop :=
  ∀ (s : State) (image : List Byte), Memory.wf s.mem →
    (image.length ≤ 3584 → ∃ t : State, hostOp (.load image) s = .next (t, .nothing) ∧ t = { s with mem := t.mem } ∧
      ∀ a : Nat, t.mem.read a =
        if 0x200 ≤ a ∧ a < 0x200 + image.length then image.getD (a - 0x200) 0 else s.mem.read a) ∧
    (image.length > 3584 → hostOp (.load image) s = .next (s, .oversizedImage))

/-- R39, R40, R340, R342: what reset leaves, whatever the state before. The glyph bytes are the spec's decision D19
(log entry 5), the stack entries D16 and the halt status D14; that no report is out and that the count of draws goes on
are the model's own (log entries 2 and 1). -/
def Obligations.ResetLeavesTheResetState : Prop :=
  ∀ s : State, ∃ t : State, hostOp .reset s = .next (t, .nothing) ∧
    t.pc = 0x200 ∧ t.idx = 0 ∧ t.sp.val = 0 ∧ t.dt = 0 ∧ t.st = 0 ∧
    (∀ x : Nibble, t.getV x = 0) ∧ (∀ k : Fin 16, t.stack[k.val] = 0) ∧ (∀ k : Fin 16, t.keys[k.val] = false) ∧
    (∀ p : Fin 2048, t.pixel p = 0) ∧
    (∀ a : Nat, t.mem.read a = if a < 80 then fontGlyphs.flatten.getD a 0 else 0) ∧
    t.halted = false ∧ t.haltCause = .none ∧ t.report = none ∧ t.draws = s.draws

/-! ### Invariants and the end of a run -/

/-- R50, R32, R36 (derived there from the instruction rules, and D14 for the halt status): every step keeps memory
canonical and inside the 4096 addresses that exist, every pixel 0 or 1, and the halt status consistent. -/
def Obligations.StepKeepsTheInvariant : Prop :=
  ∀ s t : State, s.Inv → step s = .next t → t.Inv

/-- The same for every operation of the host (R319), so for every run whatever the host's schedule (R313). -/
def Obligations.HostRunsKeepTheInvariant : Prop :=
  ∀ (ops : List HostOp) (s t : State) (rs : List Reply), s.Inv → hostRun ops s = .next (t, rs) → t.Inv

/-- Reset meets the invariants that the two statements above and the next assume. -/
def Obligations.ResetMeetsTheInvariants : Prop := State.reset.Inv ∧ State.reset.pcBounded

/-- R147 and R122 (derived there): PC never wraps: it stays at most 0x1002, and every saved return address at most
0x1000, through every step. -/
def Obligations.StepKeepsThePcBounded : Prop :=
  ∀ s t : State, s.pcBounded → step s = .next t → t.pcBounded

/-- R352 by the spec's decision D25: from a halted or a parked state every later step leaves all state as it is (the
report output is none after each). -/
def Obligations.EndedRunsStayAsTheyAre : Prop :=
  ∀ (s : State) (n : Nat), s.ended → Host.Core.run Sys2Proof.core (n + 1) s = .next { s with report := none }
end

