-- ==== Sys2Proof/Laws/Decode.lean ====
section
/-! SUPPORT. Packing and the fields of a word, as numbers: what the encoding statements rest on. -/

namespace Sys2Proof

/-! ### A word as a number -/

theorem toNat_append_eq {m n : Nat} (a : BitVec m) (b : BitVec n) :
    (a ++ b).toNat = a.toNat * 2 ^ n + b.toNat := by
  rw [BitVec.toNat_append, ← Nat.shiftLeft_add_eq_or_of_lt b.isLt, Nat.shiftLeft_eq]

theorem toNat_packXYN (c x y n : Nibble) :
    (packXYN c x y n).toNat = ((c.toNat * 16 + x.toNat) * 16 + y.toNat) * 16 + n.toNat := by
  refine (toNat_append_eq (c ++ x ++ y) n).trans ?_
  rw [toNat_append_eq, toNat_append_eq]; rfl

theorem toNat_packXNN (c x : Nibble) (nn : Byte) :
    (packXNN c x nn).toNat = (c.toNat * 16 + x.toNat) * 256 + nn.toNat := by
  refine (toNat_append_eq (c ++ x) nn).trans ?_
  rw [toNat_append_eq]; rfl

theorem toNat_packNNN (c : Nibble) (nnn : Addr) :
    (packNNN c nnn).toNat = c.toNat * 4096 + nnn.toNat :=
  toNat_append_eq c nnn

theorem toNat_wordOfBytes (b0 b1 : Byte) : (wordOfBytes b0 b1).toNat = b0.toNat * 256 + b1.toNat :=
  toNat_append_eq b0 b1

/-! ### The fields as numbers (R81) -/

theorem toNat_fieldClass (op : Word) : (fieldClass op).toNat = op.toNat / 4096 := by
  have := op.isLt
  simp only [fieldClass, BitVec.extractLsb'_toNat, Nat.shiftRight_eq_div_pow]
  omega

theorem toNat_fieldX (op : Word) : (fieldX op).toNat = op.toNat / 256 % 16 := by
  simp only [fieldX, BitVec.extractLsb'_toNat, Nat.shiftRight_eq_div_pow]

theorem toNat_fieldY (op : Word) : (fieldY op).toNat = op.toNat / 16 % 16 := by
  simp only [fieldY, BitVec.extractLsb'_toNat, Nat.shiftRight_eq_div_pow]

theorem toNat_fieldN (op : Word) : (fieldN op).toNat = op.toNat % 16 := by
  simp [fieldN, BitVec.extractLsb'_toNat]

theorem toNat_fieldNN (op : Word) : (fieldNN op).toNat = op.toNat % 256 := by
  simp [fieldNN, BitVec.extractLsb'_toNat]

theorem toNat_fieldNNN (op : Word) : (fieldNNN op).toNat = op.toNat % 4096 := by
  simp [fieldNNN, BitVec.extractLsb'_toNat]

theorem toNat_hiByte (op : Word) : (hiByte op).toNat = op.toNat / 256 := by
  have := op.isLt
  simp only [hiByte, BitVec.extractLsb'_toNat, Nat.shiftRight_eq_div_pow]
  omega

theorem toNat_loByte (op : Word) : (loByte op).toNat = op.toNat % 256 := by
  simp [loByte, BitVec.extractLsb'_toNat]

/-! ### The fields of a packed word -/

@[simp] theorem fieldClass_packXYN (c x y n : Nibble) : fieldClass (packXYN c x y n) = c := by
  apply BitVec.eq_of_toNat_eq
  have := x.isLt; have := y.isLt; have := n.isLt
  rw [toNat_fieldClass, toNat_packXYN]; omega

@[simp] theorem fieldX_packXYN (c x y n : Nibble) : fieldX (packXYN c x y n) = x := by
  apply BitVec.eq_of_toNat_eq
  have := x.isLt; have := y.isLt; have := n.isLt
  rw [toNat_fieldX, toNat_packXYN]; omega

@[simp] theorem fieldY_packXYN (c x y n : Nibble) : fieldY (packXYN c x y n) = y := by
  apply BitVec.eq_of_toNat_eq
  have := y.isLt; have := n.isLt
  rw [toNat_fieldY, toNat_packXYN]; omega

@[simp] theorem fieldN_packXYN (c x y n : Nibble) : fieldN (packXYN c x y n) = n := by
  apply BitVec.eq_of_toNat_eq
  have := n.isLt
  rw [toNat_fieldN, toNat_packXYN]; omega

@[simp] theorem fieldClass_packXNN (c x : Nibble) (nn : Byte) : fieldClass (packXNN c x nn) = c := by
  apply BitVec.eq_of_toNat_eq
  have := x.isLt; have := nn.isLt
  rw [toNat_fieldClass, toNat_packXNN]; omega

@[simp] theorem fieldX_packXNN (c x : Nibble) (nn : Byte) : fieldX (packXNN c x nn) = x := by
  apply BitVec.eq_of_toNat_eq
  have := x.isLt; have := nn.isLt
  rw [toNat_fieldX, toNat_packXNN]; omega

@[simp] theorem fieldNN_packXNN (c x : Nibble) (nn : Byte) : fieldNN (packXNN c x nn) = nn := by
  apply BitVec.eq_of_toNat_eq
  have := nn.isLt
  rw [toNat_fieldNN, toNat_packXNN]; omega

@[simp] theorem fieldClass_packNNN (c : Nibble) (nnn : Addr) : fieldClass (packNNN c nnn) = c := by
  apply BitVec.eq_of_toNat_eq
  have := nnn.isLt
  rw [toNat_fieldClass, toNat_packNNN]; omega

@[simp] theorem fieldNNN_packNNN (c : Nibble) (nnn : Addr) : fieldNNN (packNNN c nnn) = nnn := by
  apply BitVec.eq_of_toNat_eq
  have := nnn.isLt
  rw [toNat_fieldNNN, toNat_packNNN]; omega

/-! ### A word is the packing of its fields -/

theorem packXYN_fields (op : Word) : packXYN (fieldClass op) (fieldX op) (fieldY op) (fieldN op) = op := by
  apply BitVec.eq_of_toNat_eq
  rw [toNat_packXYN, toNat_fieldClass, toNat_fieldX, toNat_fieldY, toNat_fieldN]; omega

theorem packXNN_fields (op : Word) : packXNN (fieldClass op) (fieldX op) (fieldNN op) = op := by
  apply BitVec.eq_of_toNat_eq
  rw [toNat_packXNN, toNat_fieldClass, toNat_fieldX, toNat_fieldNN]; omega

theorem packNNN_fields (op : Word) : packNNN (fieldClass op) (fieldNNN op) = op := by
  apply BitVec.eq_of_toNat_eq
  rw [toNat_packNNN, toNat_fieldClass, toNat_fieldNNN]; omega

theorem wordOfBytes_bytes (op : Word) : wordOfBytes (hiByte op) (loByte op) = op := by
  apply BitVec.eq_of_toNat_eq
  rw [toNat_wordOfBytes, toNat_hiByte, toNat_loByte]; omega

@[simp] theorem hiByte_wordOfBytes (b0 b1 : Byte) : hiByte (wordOfBytes b0 b1) = b0 := by
  apply BitVec.eq_of_toNat_eq
  have := b1.isLt
  rw [toNat_hiByte, toNat_wordOfBytes]; omega

@[simp] theorem loByte_wordOfBytes (b0 b1 : Byte) : loByte (wordOfBytes b0 b1) = b1 := by
  apply BitVec.eq_of_toNat_eq
  have := b1.isLt
  rw [toNat_loByte, toNat_wordOfBytes]; omega

/-! ### The fields of a masked word: what a row of the opcode map tests (R88) -/

theorem getLsbD_packXYN (c x y n : Nibble) (i : Nat) :
    (packXYN c x y n).getLsbD i =
      if i < 4 then n.getLsbD i
      else if i < 8 then y.getLsbD (i - 4)
      else if i < 12 then x.getLsbD (i - 8)
      else c.getLsbD (i - 12) := by
  refine (BitVec.getLsbD_append (x := c ++ x ++ y) (y := n)).trans ?_
  rw [BitVec.getLsbD_append, BitVec.getLsbD_append]
  by_cases h0 : i < 4
  · simp [h0]
  by_cases h1 : i < 8
  · simp [h0, h1, show i - 4 < 4 by omega]
  by_cases h2 : i < 12
  · simp [h0, h1, h2, show ¬ (i - 4 < 4) by omega, show i - 4 - 4 = i - 8 by omega, show i - 8 < 4 by omega]
  · simp [h0, h1, h2, show ¬ (i - 4 < 4) by omega, show i - 4 - 4 = i - 8 by omega,
      show ¬ (i - 8 < 4) by omega, show i - 8 - 4 = i - 12 by omega]

/-- Masking works field by field. -/
theorem packXYN_and (c x y n c' x' y' n' : Nibble) :
    packXYN c x y n &&& packXYN c' x' y' n' = packXYN (c &&& c') (x &&& x') (y &&& y') (n &&& n') := by
  apply BitVec.eq_of_getLsbD_eq
  intro i _
  simp only [BitVec.getLsbD_and, getLsbD_packXYN]
  split_ifs <;> rfl

theorem packXYN_inj {c x y n c' x' y' n' : Nibble} (h : packXYN c x y n = packXYN c' x' y' n') :
    c = c' ∧ x = x' ∧ y = y' ∧ n = n' := by
  have h1 := congrArg fieldClass h
  have h2 := congrArg fieldX h
  have h3 := congrArg fieldY h
  have h4 := congrArg fieldN h
  simp only [fieldClass_packXYN, fieldX_packXYN, fieldY_packXYN, fieldN_packXYN] at h1 h2 h3 h4
  exact ⟨h1, h2, h3, h4⟩

theorem packXNN_eq_packXYN (c x : Nibble) (nn : Byte) :
    packXNN c x nn = packXYN c x (fieldY (packXNN c x nn)) (fieldN (packXNN c x nn)) := by
  have := packXYN_fields (packXNN c x nn)
  simpa using this.symm

theorem and_F (x : Nibble) : x &&& 0xF = x := BitVec.and_allOnes
theorem and_0 (x : Nibble) : x &&& 0x0 = 0x0 := BitVec.and_zero

/-- `op & 0xF000` keeps the class. -/
theorem and_F000 (op : Word) : op &&& 0xF000 = packXYN (fieldClass op) 0 0 0 := by
  have hm : (0xF000 : Word) = packXYN 0xF 0x0 0x0 0x0 := by decide
  conv_lhs => rw [← packXYN_fields op, hm, packXYN_and]
  simp only [and_F, and_0]

/-- `op & 0xF00F` keeps the class and `n`. -/
theorem and_F00F (op : Word) : op &&& 0xF00F = packXYN (fieldClass op) 0 0 (fieldN op) := by
  have hm : (0xF00F : Word) = packXYN 0xF 0x0 0x0 0xF := by decide
  conv_lhs => rw [← packXYN_fields op, hm, packXYN_and]
  simp only [and_F, and_0]

/-- `op & 0xF0FF` keeps the class and `nn`. -/
theorem and_F0FF (op : Word) : op &&& 0xF0FF = packXYN (fieldClass op) 0 (fieldY op) (fieldN op) := by
  have hm : (0xF0FF : Word) = packXYN 0xF 0x0 0xF 0xF := by decide
  conv_lhs => rw [← packXYN_fields op, hm, packXYN_and]
  simp only [and_F, and_0]

/-- `nn` is `y` and `n` together (R81). -/
theorem fieldNN_eq_iff (op : Word) (y n : Nibble) :
    fieldNN op = y ++ n ↔ fieldY op = y ∧ fieldN op = n := by
  have hy := toNat_fieldY op
  have hn := toNat_fieldN op
  have hnn := toNat_fieldNN op
  have hyn := toNat_append_eq y n
  have := y.isLt; have := n.isLt
  constructor
  · intro h
    have h := congrArg BitVec.toNat h
    exact ⟨BitVec.eq_of_toNat_eq (by omega), BitVec.eq_of_toNat_eq (by omega)⟩
  · rintro ⟨rfl, rfl⟩
    exact BitVec.eq_of_toNat_eq (by omega)

end Sys2Proof
end

