-- ==== Sys2Proof/Laws/Memory.lean ====
section
/-! SUPPORT. The laws of memory: a read after a write, that every operation keeps the canonical form, what a run of
bytes reads and writes, and that equal contents are equal data. -/

namespace Sys2Proof.Machine

/-- The tail of a canonical memory is canonical. -/
theorem Memory.wf_tail {c : Host.Cell} {m : Memory} (h : Memory.wf (c :: m)) : Memory.wf m :=
  ⟨h.1.tail, fun d hd => h.2 d (List.mem_cons_of_mem _ hd)⟩

/-- An address below every listed one reads as unlisted. -/
theorem Memory.read_of_lt {m : Memory} {a : Nat} (h : ∀ c ∈ m, a < c.1) :
    m.read a = Memory.unlisted a := by
  induction m with
  | nil => rfl
  | cons c m ih =>
    have hc := h c List.mem_cons_self
    simp only [Memory.read]
    rw [if_neg (by omega)]
    exact ih fun d hd => h d (List.mem_cons_of_mem _ hd)

/-- A read after a write: the byte written at its own address, the byte from before elsewhere (R58). -/
theorem Memory.read_write {m : Memory} (h : Memory.wf m) (a b : Nat) (v : Byte) :
    (m.write a v).read b = if b = a then v else m.read b := by
  induction m with
  | nil =>
    simp only [Memory.write]
    split <;> rename_i hv
    · by_cases hb : b = a <;> simp [Memory.read, hb, hv]
    · simp only [Memory.read]
  | cons c m ih =>
    obtain ⟨k, w⟩ := c
    have htail : ∀ d ∈ m, k < d.1 := (List.pairwise_cons.mp h.1).1
    have ih := ih (Memory.wf_tail h)
    simp only [Memory.write]
    split
    · rename_i hak
      split <;> rename_i hv
      · by_cases hb : b = a
        · subst hb
          rw [if_pos rfl, hv]
          refine Memory.read_of_lt ?_
          intro d hd
          rcases List.mem_cons.mp hd with rfl | hd
          · exact hak
          · exact hak.trans (htail d hd)
        · rw [if_neg hb]
      · by_cases hb : b = a <;> simp [Memory.read, hb]
    · split
      · rename_i hak
        subst hak
        split <;> rename_i hv
        · by_cases hb : b = a
          · subst hb
            rw [if_pos rfl, hv]
            exact Memory.read_of_lt htail
          · simp [Memory.read, hb]
        · by_cases hb : b = a <;> simp [Memory.read, hb]
      · rename_i hak
        simp only [Memory.read, ih]
        by_cases hb : b = k
        · subst hb; rw [if_pos rfl, if_neg (by omega), if_pos rfl]
        · rw [if_neg hb, if_neg hb]

/-- Every address a write leaves listed was listed before or is the one written. -/
theorem Memory.mem_write {m : Memory} {a : Nat} {v : Byte} {c : Host.Cell} (h : c ∈ m.write a v) :
    c ∈ m ∨ (c = (a, v) ∧ v ≠ Memory.unlisted a) := by
  induction m with
  | nil =>
    simp only [Memory.write] at h
    split at h <;> simp_all
  | cons d m ih =>
    obtain ⟨k, w⟩ := d
    simp only [Memory.write] at h
    split at h
    · split at h
      · exact .inl h
      · rcases List.mem_cons.mp h with rfl | h
        · exact .inr ⟨rfl, by assumption⟩
        · exact .inl h
    · split at h
      · split at h
        · exact .inl (List.mem_cons_of_mem _ h)
        · rcases List.mem_cons.mp h with rfl | h
          · exact .inr ⟨rfl, by assumption⟩
          · exact .inl (List.mem_cons_of_mem _ h)
      · rcases List.mem_cons.mp h with rfl | h
        · exact .inl List.mem_cons_self
        · rcases ih h with h | h
          · exact .inl (List.mem_cons_of_mem _ h)
          · exact .inr h

/-- A write to an address that exists keeps the canonical form. -/
theorem Memory.write_wf {m : Memory} (h : Memory.wf m) {a : Nat} (ha : a < Config.memSize) (v : Byte) :
    Memory.wf (m.write a v) := by
  refine ⟨?_, ?_⟩
  · clear ha
    induction m with
    | nil => simp only [Memory.write]; split <;> simp
    | cons c m ih =>
      obtain ⟨k, w⟩ := c
      have hp := List.pairwise_cons.mp h.1
      have ih := ih (Memory.wf_tail h)
      simp only [Memory.write]
      split
      · rename_i hak
        split
        · exact h.1
        · refine List.pairwise_cons.mpr ⟨fun d hd => ?_, h.1⟩
          rcases List.mem_cons.mp hd with rfl | hd
          · exact hak
          · exact hak.trans (hp.1 d hd)
      · split
        · rename_i hak
          subst hak
          split
          · exact hp.2
          · exact List.pairwise_cons.mpr ⟨hp.1, hp.2⟩
        · refine List.pairwise_cons.mpr ⟨fun d hd => ?_, ih⟩
          rcases Memory.mem_write hd with hd | ⟨rfl, -⟩
          · exact hp.1 d hd
          · show k < a
            omega
  · intro c hc
    rcases Memory.mem_write hc with hc | ⟨rfl, hv⟩
    · exact h.2 c hc
    · exact ⟨ha, hv⟩

/-- Reset's memory lists nothing, so it is canonical. -/
theorem State.reset_mem_wf : Memory.wf State.reset.mem := ⟨List.Pairwise.nil, nofun⟩

/-- Writing a run of bytes that lies below 4096 keeps the canonical form. -/
theorem Memory.writeBytes_wf {m : Memory} (h : Memory.wf m) {base : Nat} {bs : List Byte}
    (hb : base + bs.length ≤ Config.memSize) : Memory.wf (m.writeBytes base bs) := by
  induction bs generalizing m base with
  | nil => exact h
  | cons b bs ih =>
    simp only [List.length_cons] at hb
    exact ih (Memory.write_wf h (by omega) b) (by omega)

/-- What an address reads after a run of bytes below 4096 was written from `base` up: its byte of the run, or the byte
from before. -/
theorem Memory.read_writeBytes {m : Memory} (h : Memory.wf m) {base : Nat} {bs : List Byte}
    (hb : base + bs.length ≤ Config.memSize) (a : Nat) :
    (m.writeBytes base bs).read a =
      if base ≤ a ∧ a < base + bs.length then bs.getD (a - base) 0 else m.read a := by
  induction bs generalizing m base with
  | nil =>
    simp only [Memory.writeBytes, List.length_nil]
    rw [if_neg (by omega)]
  | cons b bs ih =>
    simp only [List.length_cons] at hb ⊢
    simp only [Memory.writeBytes]
    rw [ih (Memory.write_wf h (by omega) b) (by omega), Memory.read_write h]
    by_cases h1 : a = base
    · subst h1
      rw [if_neg (by omega), if_pos rfl, if_pos (by omega)]
      simp
    · by_cases h2 : base + 1 ≤ a ∧ a < base + 1 + bs.length
      · rw [if_pos h2, if_pos (by omega), show a - base = (a - (base + 1)) + 1 by omega]
        simp
      · rw [if_neg h2, if_neg h1, if_neg (by omega)]

@[simp] theorem Memory.length_readBytes (m : Memory) (base n : Nat) : (m.readBytes base n).length = n := by
  induction n generalizing base with
  | zero => rfl
  | succ n ih => simp [Memory.readBytes, ih]

/-- The `k`-th byte of a run read from `base` up. -/
theorem Memory.getD_readBytes (m : Memory) (base n k : Nat) (hk : k < n) :
    (m.readBytes base n).getD k 0 = m.read (base + k) := by
  induction n generalizing base k with
  | zero => omega
  | succ n ih =>
    cases k with
    | zero => rfl
    | succ k =>
      have := ih (base + 1) k (by omega)
      rw [show base + 1 + k = base + (k + 1) by omega] at this
      simpa [Memory.readBytes] using this

/-- Canonical memories with equal contents are equal data. -/
theorem Memory.ext_of_read {m n : Memory} (hm : Memory.wf m) (hn : Memory.wf n)
    (h : ∀ a, m.read a = n.read a) : m = n := by
  induction m generalizing n with
  | nil =>
    cases n with
    | nil => rfl
    | cons d n =>
      have := h d.1
      simp only [Memory.read] at this
      exact absurd this.symm (hn.2 d List.mem_cons_self).2
  | cons c m ih =>
    have hc := List.pairwise_cons.mp hm.1
    have hcu := (hm.2 c List.mem_cons_self).2
    have hrc : Memory.read (c :: m) c.1 = c.2 := by simp [Memory.read]
    cases n with
    | nil => exact absurd (hrc.symm.trans (h c.1)) hcu
    | cons d n =>
      have hd := List.pairwise_cons.mp hn.1
      have hdu := (hn.2 d List.mem_cons_self).2
      have hrd : Memory.read (d :: n) d.1 = d.2 := by simp [Memory.read]
      have hlt : ∀ (p q : Host.Cell) (l : Memory), (∀ e ∈ l, q.1 < e.1) → p.1 < q.1 →
          Memory.read (q :: l) p.1 = Memory.unlisted p.1 := by
        intro p q l hl hpq
        refine Memory.read_of_lt fun e he => ?_
        rcases List.mem_cons.mp he with rfl | he
        · exact hpq
        · exact hpq.trans (hl e he)
      have h1 : c.1 = d.1 := by
        rcases Nat.lt_trichotomy c.1 d.1 with hlt' | he | hlt'
        · exact absurd (hrc.symm.trans ((h c.1).trans (hlt c d n hd.1 hlt'))) hcu
        · exact he
        · exact absurd (hrd.symm.trans ((h d.1).symm.trans (hlt d c m hc.1 hlt'))) hdu
      have h2 : c.2 = d.2 := by rw [← hrc, h c.1, h1, hrd]
      have hcd : c = d := Prod.ext h1 h2
      subst hcd
      congr 1
      refine ih (Memory.wf_tail hm) (Memory.wf_tail hn) fun a => ?_
      have := h a
      by_cases ha : a = c.1
      · subst ha
        rw [Memory.read_of_lt hc.1, Memory.read_of_lt hd.1]
      · obtain ⟨k, w⟩ := c
        simp only [Memory.read] at this
        rwa [if_neg ha, if_neg ha] at this

end Sys2Proof.Machine
end

