-- ==== Sys2Proof/Laws/State.lean ====
section
/-! SUPPORT. The small lemmas of the state: for each update and each field, what the field holds afterwards, true by
rfl; then the same for the accessors, and the one law of the register file (rule R20). -/

namespace Sys2Proof.Machine

variable (s : State)

/-! ### setV -/

@[simp] theorem State.setV_idx (x : Nibble) (b : Byte) : (s.setV x b).idx = s.idx := rfl
@[simp] theorem State.setV_pc (x : Nibble) (b : Byte) : (s.setV x b).pc = s.pc := rfl
@[simp] theorem State.setV_sp (x : Nibble) (b : Byte) : (s.setV x b).sp = s.sp := rfl
@[simp] theorem State.setV_stack (x : Nibble) (b : Byte) : (s.setV x b).stack = s.stack := rfl
@[simp] theorem State.setV_dt (x : Nibble) (b : Byte) : (s.setV x b).dt = s.dt := rfl
@[simp] theorem State.setV_st (x : Nibble) (b : Byte) : (s.setV x b).st = s.st := rfl
@[simp] theorem State.setV_fb (x : Nibble) (b : Byte) : (s.setV x b).fb = s.fb := rfl
@[simp] theorem State.setV_keys (x : Nibble) (b : Byte) : (s.setV x b).keys = s.keys := rfl
@[simp] theorem State.setV_mem (x : Nibble) (b : Byte) : (s.setV x b).mem = s.mem := rfl
@[simp] theorem State.setV_halted (x : Nibble) (b : Byte) : (s.setV x b).halted = s.halted := rfl
@[simp] theorem State.setV_haltCause (x : Nibble) (b : Byte) : (s.setV x b).haltCause = s.haltCause := rfl
@[simp] theorem State.setV_report (x : Nibble) (b : Byte) : (s.setV x b).report = s.report := rfl
@[simp] theorem State.setV_draws (x : Nibble) (b : Byte) : (s.setV x b).draws = s.draws := rfl
@[simp] theorem State.setV_pixel (x : Nibble) (b : Byte) (p : Fin 2048) : (s.setV x b).pixel p = s.pixel p := rfl
@[simp] theorem State.setV_keyDown (x : Nibble) (b : Byte) (j : Nibble) : (s.setV x b).keyDown j = s.keyDown j := rfl

/-! ### setIdx -/

@[simp] theorem State.setIdx_v (w : Word) : (s.setIdx w).v = s.v := rfl
@[simp] theorem State.setIdx_idx (w : Word) : (s.setIdx w).idx = w := rfl
@[simp] theorem State.setIdx_pc (w : Word) : (s.setIdx w).pc = s.pc := rfl
@[simp] theorem State.setIdx_sp (w : Word) : (s.setIdx w).sp = s.sp := rfl
@[simp] theorem State.setIdx_stack (w : Word) : (s.setIdx w).stack = s.stack := rfl
@[simp] theorem State.setIdx_dt (w : Word) : (s.setIdx w).dt = s.dt := rfl
@[simp] theorem State.setIdx_st (w : Word) : (s.setIdx w).st = s.st := rfl
@[simp] theorem State.setIdx_fb (w : Word) : (s.setIdx w).fb = s.fb := rfl
@[simp] theorem State.setIdx_keys (w : Word) : (s.setIdx w).keys = s.keys := rfl
@[simp] theorem State.setIdx_mem (w : Word) : (s.setIdx w).mem = s.mem := rfl
@[simp] theorem State.setIdx_halted (w : Word) : (s.setIdx w).halted = s.halted := rfl
@[simp] theorem State.setIdx_haltCause (w : Word) : (s.setIdx w).haltCause = s.haltCause := rfl
@[simp] theorem State.setIdx_report (w : Word) : (s.setIdx w).report = s.report := rfl
@[simp] theorem State.setIdx_draws (w : Word) : (s.setIdx w).draws = s.draws := rfl
@[simp] theorem State.setIdx_getV (w : Word) (y : Nibble) : (s.setIdx w).getV y = s.getV y := rfl
@[simp] theorem State.setIdx_pixel (w : Word) (p : Fin 2048) : (s.setIdx w).pixel p = s.pixel p := rfl
@[simp] theorem State.setIdx_keyDown (w : Word) (j : Nibble) : (s.setIdx w).keyDown j = s.keyDown j := rfl

/-! ### setPc -/

@[simp] theorem State.setPc_v (w : Word) : (s.setPc w).v = s.v := rfl
@[simp] theorem State.setPc_idx (w : Word) : (s.setPc w).idx = s.idx := rfl
@[simp] theorem State.setPc_pc (w : Word) : (s.setPc w).pc = w := rfl
@[simp] theorem State.setPc_sp (w : Word) : (s.setPc w).sp = s.sp := rfl
@[simp] theorem State.setPc_stack (w : Word) : (s.setPc w).stack = s.stack := rfl
@[simp] theorem State.setPc_dt (w : Word) : (s.setPc w).dt = s.dt := rfl
@[simp] theorem State.setPc_st (w : Word) : (s.setPc w).st = s.st := rfl
@[simp] theorem State.setPc_fb (w : Word) : (s.setPc w).fb = s.fb := rfl
@[simp] theorem State.setPc_keys (w : Word) : (s.setPc w).keys = s.keys := rfl
@[simp] theorem State.setPc_mem (w : Word) : (s.setPc w).mem = s.mem := rfl
@[simp] theorem State.setPc_halted (w : Word) : (s.setPc w).halted = s.halted := rfl
@[simp] theorem State.setPc_haltCause (w : Word) : (s.setPc w).haltCause = s.haltCause := rfl
@[simp] theorem State.setPc_report (w : Word) : (s.setPc w).report = s.report := rfl
@[simp] theorem State.setPc_draws (w : Word) : (s.setPc w).draws = s.draws := rfl
@[simp] theorem State.setPc_getV (w : Word) (y : Nibble) : (s.setPc w).getV y = s.getV y := rfl
@[simp] theorem State.setPc_pixel (w : Word) (p : Fin 2048) : (s.setPc w).pixel p = s.pixel p := rfl
@[simp] theorem State.setPc_keyDown (w : Word) (j : Nibble) : (s.setPc w).keyDown j = s.keyDown j := rfl

/-! ### setDt -/

@[simp] theorem State.setDt_v (b : Byte) : (s.setDt b).v = s.v := rfl
@[simp] theorem State.setDt_idx (b : Byte) : (s.setDt b).idx = s.idx := rfl
@[simp] theorem State.setDt_pc (b : Byte) : (s.setDt b).pc = s.pc := rfl
@[simp] theorem State.setDt_sp (b : Byte) : (s.setDt b).sp = s.sp := rfl
@[simp] theorem State.setDt_stack (b : Byte) : (s.setDt b).stack = s.stack := rfl
@[simp] theorem State.setDt_dt (b : Byte) : (s.setDt b).dt = b := rfl
@[simp] theorem State.setDt_st (b : Byte) : (s.setDt b).st = s.st := rfl
@[simp] theorem State.setDt_fb (b : Byte) : (s.setDt b).fb = s.fb := rfl
@[simp] theorem State.setDt_keys (b : Byte) : (s.setDt b).keys = s.keys := rfl
@[simp] theorem State.setDt_mem (b : Byte) : (s.setDt b).mem = s.mem := rfl
@[simp] theorem State.setDt_halted (b : Byte) : (s.setDt b).halted = s.halted := rfl
@[simp] theorem State.setDt_haltCause (b : Byte) : (s.setDt b).haltCause = s.haltCause := rfl
@[simp] theorem State.setDt_report (b : Byte) : (s.setDt b).report = s.report := rfl
@[simp] theorem State.setDt_draws (b : Byte) : (s.setDt b).draws = s.draws := rfl
@[simp] theorem State.setDt_getV (b : Byte) (y : Nibble) : (s.setDt b).getV y = s.getV y := rfl
@[simp] theorem State.setDt_pixel (b : Byte) (p : Fin 2048) : (s.setDt b).pixel p = s.pixel p := rfl
@[simp] theorem State.setDt_keyDown (b : Byte) (j : Nibble) : (s.setDt b).keyDown j = s.keyDown j := rfl

/-! ### setSt -/

@[simp] theorem State.setSt_v (b : Byte) : (s.setSt b).v = s.v := rfl
@[simp] theorem State.setSt_idx (b : Byte) : (s.setSt b).idx = s.idx := rfl
@[simp] theorem State.setSt_pc (b : Byte) : (s.setSt b).pc = s.pc := rfl
@[simp] theorem State.setSt_sp (b : Byte) : (s.setSt b).sp = s.sp := rfl
@[simp] theorem State.setSt_stack (b : Byte) : (s.setSt b).stack = s.stack := rfl
@[simp] theorem State.setSt_dt (b : Byte) : (s.setSt b).dt = s.dt := rfl
@[simp] theorem State.setSt_st (b : Byte) : (s.setSt b).st = b := rfl
@[simp] theorem State.setSt_fb (b : Byte) : (s.setSt b).fb = s.fb := rfl
@[simp] theorem State.setSt_keys (b : Byte) : (s.setSt b).keys = s.keys := rfl
@[simp] theorem State.setSt_mem (b : Byte) : (s.setSt b).mem = s.mem := rfl
@[simp] theorem State.setSt_halted (b : Byte) : (s.setSt b).halted = s.halted := rfl
@[simp] theorem State.setSt_haltCause (b : Byte) : (s.setSt b).haltCause = s.haltCause := rfl
@[simp] theorem State.setSt_report (b : Byte) : (s.setSt b).report = s.report := rfl
@[simp] theorem State.setSt_draws (b : Byte) : (s.setSt b).draws = s.draws := rfl
@[simp] theorem State.setSt_getV (b : Byte) (y : Nibble) : (s.setSt b).getV y = s.getV y := rfl
@[simp] theorem State.setSt_pixel (b : Byte) (p : Fin 2048) : (s.setSt b).pixel p = s.pixel p := rfl
@[simp] theorem State.setSt_keyDown (b : Byte) (j : Nibble) : (s.setSt b).keyDown j = s.keyDown j := rfl

/-! ### setMem -/

@[simp] theorem State.setMem_v (m : Memory) : (s.setMem m).v = s.v := rfl
@[simp] theorem State.setMem_idx (m : Memory) : (s.setMem m).idx = s.idx := rfl
@[simp] theorem State.setMem_pc (m : Memory) : (s.setMem m).pc = s.pc := rfl
@[simp] theorem State.setMem_sp (m : Memory) : (s.setMem m).sp = s.sp := rfl
@[simp] theorem State.setMem_stack (m : Memory) : (s.setMem m).stack = s.stack := rfl
@[simp] theorem State.setMem_dt (m : Memory) : (s.setMem m).dt = s.dt := rfl
@[simp] theorem State.setMem_st (m : Memory) : (s.setMem m).st = s.st := rfl
@[simp] theorem State.setMem_fb (m : Memory) : (s.setMem m).fb = s.fb := rfl
@[simp] theorem State.setMem_keys (m : Memory) : (s.setMem m).keys = s.keys := rfl
@[simp] theorem State.setMem_mem (m : Memory) : (s.setMem m).mem = m := rfl
@[simp] theorem State.setMem_halted (m : Memory) : (s.setMem m).halted = s.halted := rfl
@[simp] theorem State.setMem_haltCause (m : Memory) : (s.setMem m).haltCause = s.haltCause := rfl
@[simp] theorem State.setMem_report (m : Memory) : (s.setMem m).report = s.report := rfl
@[simp] theorem State.setMem_draws (m : Memory) : (s.setMem m).draws = s.draws := rfl
@[simp] theorem State.setMem_getV (m : Memory) (y : Nibble) : (s.setMem m).getV y = s.getV y := rfl
@[simp] theorem State.setMem_pixel (m : Memory) (p : Fin 2048) : (s.setMem m).pixel p = s.pixel p := rfl
@[simp] theorem State.setMem_keyDown (m : Memory) (j : Nibble) : (s.setMem m).keyDown j = s.keyDown j := rfl

/-! ### setFb -/

@[simp] theorem State.setFb_v (f : Vector Byte 2048) : (s.setFb f).v = s.v := rfl
@[simp] theorem State.setFb_idx (f : Vector Byte 2048) : (s.setFb f).idx = s.idx := rfl
@[simp] theorem State.setFb_pc (f : Vector Byte 2048) : (s.setFb f).pc = s.pc := rfl
@[simp] theorem State.setFb_sp (f : Vector Byte 2048) : (s.setFb f).sp = s.sp := rfl
@[simp] theorem State.setFb_stack (f : Vector Byte 2048) : (s.setFb f).stack = s.stack := rfl
@[simp] theorem State.setFb_dt (f : Vector Byte 2048) : (s.setFb f).dt = s.dt := rfl
@[simp] theorem State.setFb_st (f : Vector Byte 2048) : (s.setFb f).st = s.st := rfl
@[simp] theorem State.setFb_fb (f : Vector Byte 2048) : (s.setFb f).fb = f := rfl
@[simp] theorem State.setFb_keys (f : Vector Byte 2048) : (s.setFb f).keys = s.keys := rfl
@[simp] theorem State.setFb_mem (f : Vector Byte 2048) : (s.setFb f).mem = s.mem := rfl
@[simp] theorem State.setFb_halted (f : Vector Byte 2048) : (s.setFb f).halted = s.halted := rfl
@[simp] theorem State.setFb_haltCause (f : Vector Byte 2048) : (s.setFb f).haltCause = s.haltCause := rfl
@[simp] theorem State.setFb_report (f : Vector Byte 2048) : (s.setFb f).report = s.report := rfl
@[simp] theorem State.setFb_draws (f : Vector Byte 2048) : (s.setFb f).draws = s.draws := rfl
@[simp] theorem State.setFb_getV (f : Vector Byte 2048) (y : Nibble) : (s.setFb f).getV y = s.getV y := rfl
@[simp] theorem State.setFb_keyDown (f : Vector Byte 2048) (j : Nibble) : (s.setFb f).keyDown j = s.keyDown j := rfl

/-! ### setK -/

@[simp] theorem State.setK_v (k : Vector Bool 16) : (s.setK k).v = s.v := rfl
@[simp] theorem State.setK_idx (k : Vector Bool 16) : (s.setK k).idx = s.idx := rfl
@[simp] theorem State.setK_pc (k : Vector Bool 16) : (s.setK k).pc = s.pc := rfl
@[simp] theorem State.setK_sp (k : Vector Bool 16) : (s.setK k).sp = s.sp := rfl
@[simp] theorem State.setK_stack (k : Vector Bool 16) : (s.setK k).stack = s.stack := rfl
@[simp] theorem State.setK_dt (k : Vector Bool 16) : (s.setK k).dt = s.dt := rfl
@[simp] theorem State.setK_st (k : Vector Bool 16) : (s.setK k).st = s.st := rfl
@[simp] theorem State.setK_fb (k : Vector Bool 16) : (s.setK k).fb = s.fb := rfl
@[simp] theorem State.setK_keys (k : Vector Bool 16) : (s.setK k).keys = k := rfl
@[simp] theorem State.setK_mem (k : Vector Bool 16) : (s.setK k).mem = s.mem := rfl
@[simp] theorem State.setK_halted (k : Vector Bool 16) : (s.setK k).halted = s.halted := rfl
@[simp] theorem State.setK_haltCause (k : Vector Bool 16) : (s.setK k).haltCause = s.haltCause := rfl
@[simp] theorem State.setK_report (k : Vector Bool 16) : (s.setK k).report = s.report := rfl
@[simp] theorem State.setK_draws (k : Vector Bool 16) : (s.setK k).draws = s.draws := rfl
@[simp] theorem State.setK_getV (k : Vector Bool 16) (y : Nibble) : (s.setK k).getV y = s.getV y := rfl
@[simp] theorem State.setK_pixel (k : Vector Bool 16) (p : Fin 2048) : (s.setK k).pixel p = s.pixel p := rfl

/-! ### setReport -/

@[simp] theorem State.setReport_v (r : Option Report) : (s.setReport r).v = s.v := rfl
@[simp] theorem State.setReport_idx (r : Option Report) : (s.setReport r).idx = s.idx := rfl
@[simp] theorem State.setReport_pc (r : Option Report) : (s.setReport r).pc = s.pc := rfl
@[simp] theorem State.setReport_sp (r : Option Report) : (s.setReport r).sp = s.sp := rfl
@[simp] theorem State.setReport_stack (r : Option Report) : (s.setReport r).stack = s.stack := rfl
@[simp] theorem State.setReport_dt (r : Option Report) : (s.setReport r).dt = s.dt := rfl
@[simp] theorem State.setReport_st (r : Option Report) : (s.setReport r).st = s.st := rfl
@[simp] theorem State.setReport_fb (r : Option Report) : (s.setReport r).fb = s.fb := rfl
@[simp] theorem State.setReport_keys (r : Option Report) : (s.setReport r).keys = s.keys := rfl
@[simp] theorem State.setReport_mem (r : Option Report) : (s.setReport r).mem = s.mem := rfl
@[simp] theorem State.setReport_halted (r : Option Report) : (s.setReport r).halted = s.halted := rfl
@[simp] theorem State.setReport_haltCause (r : Option Report) : (s.setReport r).haltCause = s.haltCause := rfl
@[simp] theorem State.setReport_report (r : Option Report) : (s.setReport r).report = r := rfl
@[simp] theorem State.setReport_draws (r : Option Report) : (s.setReport r).draws = s.draws := rfl
@[simp] theorem State.setReport_getV (r : Option Report) (y : Nibble) : (s.setReport r).getV y = s.getV y := rfl
@[simp] theorem State.setReport_pixel (r : Option Report) (p : Fin 2048) : (s.setReport r).pixel p = s.pixel p := rfl
@[simp] theorem State.setReport_keyDown (r : Option Report) (j : Nibble) : (s.setReport r).keyDown j = s.keyDown j := rfl

/-! ### setDraws -/

@[simp] theorem State.setDraws_v (k : Nat) : (s.setDraws k).v = s.v := rfl
@[simp] theorem State.setDraws_idx (k : Nat) : (s.setDraws k).idx = s.idx := rfl
@[simp] theorem State.setDraws_pc (k : Nat) : (s.setDraws k).pc = s.pc := rfl
@[simp] theorem State.setDraws_sp (k : Nat) : (s.setDraws k).sp = s.sp := rfl
@[simp] theorem State.setDraws_stack (k : Nat) : (s.setDraws k).stack = s.stack := rfl
@[simp] theorem State.setDraws_dt (k : Nat) : (s.setDraws k).dt = s.dt := rfl
@[simp] theorem State.setDraws_st (k : Nat) : (s.setDraws k).st = s.st := rfl
@[simp] theorem State.setDraws_fb (k : Nat) : (s.setDraws k).fb = s.fb := rfl
@[simp] theorem State.setDraws_keys (k : Nat) : (s.setDraws k).keys = s.keys := rfl
@[simp] theorem State.setDraws_mem (k : Nat) : (s.setDraws k).mem = s.mem := rfl
@[simp] theorem State.setDraws_halted (k : Nat) : (s.setDraws k).halted = s.halted := rfl
@[simp] theorem State.setDraws_haltCause (k : Nat) : (s.setDraws k).haltCause = s.haltCause := rfl
@[simp] theorem State.setDraws_report (k : Nat) : (s.setDraws k).report = s.report := rfl
@[simp] theorem State.setDraws_draws (k : Nat) : (s.setDraws k).draws = k := rfl
@[simp] theorem State.setDraws_getV (k : Nat) (y : Nibble) : (s.setDraws k).getV y = s.getV y := rfl
@[simp] theorem State.setDraws_pixel (k : Nat) (p : Fin 2048) : (s.setDraws k).pixel p = s.pixel p := rfl
@[simp] theorem State.setDraws_keyDown (k : Nat) (j : Nibble) : (s.setDraws k).keyDown j = s.keyDown j := rfl

/-! ### setHalt -/

@[simp] theorem State.setHalt_v (c : Cause) : (s.setHalt c).v = s.v := rfl
@[simp] theorem State.setHalt_idx (c : Cause) : (s.setHalt c).idx = s.idx := rfl
@[simp] theorem State.setHalt_pc (c : Cause) : (s.setHalt c).pc = s.pc := rfl
@[simp] theorem State.setHalt_sp (c : Cause) : (s.setHalt c).sp = s.sp := rfl
@[simp] theorem State.setHalt_stack (c : Cause) : (s.setHalt c).stack = s.stack := rfl
@[simp] theorem State.setHalt_dt (c : Cause) : (s.setHalt c).dt = s.dt := rfl
@[simp] theorem State.setHalt_st (c : Cause) : (s.setHalt c).st = s.st := rfl
@[simp] theorem State.setHalt_fb (c : Cause) : (s.setHalt c).fb = s.fb := rfl
@[simp] theorem State.setHalt_keys (c : Cause) : (s.setHalt c).keys = s.keys := rfl
@[simp] theorem State.setHalt_mem (c : Cause) : (s.setHalt c).mem = s.mem := rfl
@[simp] theorem State.setHalt_halted (c : Cause) : (s.setHalt c).halted = true := rfl
@[simp] theorem State.setHalt_haltCause (c : Cause) : (s.setHalt c).haltCause = c := rfl
@[simp] theorem State.setHalt_report (c : Cause) : (s.setHalt c).report = s.report := rfl
@[simp] theorem State.setHalt_draws (c : Cause) : (s.setHalt c).draws = s.draws := rfl
@[simp] theorem State.setHalt_getV (c : Cause) (y : Nibble) : (s.setHalt c).getV y = s.getV y := rfl
@[simp] theorem State.setHalt_pixel (c : Cause) (p : Fin 2048) : (s.setHalt c).pixel p = s.pixel p := rfl
@[simp] theorem State.setHalt_keyDown (c : Cause) (j : Nibble) : (s.setHalt c).keyDown j = s.keyDown j := rfl

/-! ### pushPc -/

@[simp] theorem State.pushPc_v (h : s.sp.val < 16) : (s.pushPc h).v = s.v := rfl
@[simp] theorem State.pushPc_idx (h : s.sp.val < 16) : (s.pushPc h).idx = s.idx := rfl
@[simp] theorem State.pushPc_pc (h : s.sp.val < 16) : (s.pushPc h).pc = s.pc := rfl
@[simp] theorem State.pushPc_dt (h : s.sp.val < 16) : (s.pushPc h).dt = s.dt := rfl
@[simp] theorem State.pushPc_st (h : s.sp.val < 16) : (s.pushPc h).st = s.st := rfl
@[simp] theorem State.pushPc_fb (h : s.sp.val < 16) : (s.pushPc h).fb = s.fb := rfl
@[simp] theorem State.pushPc_keys (h : s.sp.val < 16) : (s.pushPc h).keys = s.keys := rfl
@[simp] theorem State.pushPc_mem (h : s.sp.val < 16) : (s.pushPc h).mem = s.mem := rfl
@[simp] theorem State.pushPc_halted (h : s.sp.val < 16) : (s.pushPc h).halted = s.halted := rfl
@[simp] theorem State.pushPc_haltCause (h : s.sp.val < 16) : (s.pushPc h).haltCause = s.haltCause := rfl
@[simp] theorem State.pushPc_report (h : s.sp.val < 16) : (s.pushPc h).report = s.report := rfl
@[simp] theorem State.pushPc_draws (h : s.sp.val < 16) : (s.pushPc h).draws = s.draws := rfl
@[simp] theorem State.pushPc_getV (h : s.sp.val < 16) (y : Nibble) : (s.pushPc h).getV y = s.getV y := rfl
@[simp] theorem State.pushPc_pixel (h : s.sp.val < 16) (p : Fin 2048) : (s.pushPc h).pixel p = s.pixel p := rfl
@[simp] theorem State.pushPc_keyDown (h : s.sp.val < 16) (j : Nibble) : (s.pushPc h).keyDown j = s.keyDown j := rfl

/-! ### popPc -/

@[simp] theorem State.popPc_v (h : 0 < s.sp.val) : (s.popPc h).v = s.v := rfl
@[simp] theorem State.popPc_idx (h : 0 < s.sp.val) : (s.popPc h).idx = s.idx := rfl
@[simp] theorem State.popPc_stack (h : 0 < s.sp.val) : (s.popPc h).stack = s.stack := rfl
@[simp] theorem State.popPc_dt (h : 0 < s.sp.val) : (s.popPc h).dt = s.dt := rfl
@[simp] theorem State.popPc_st (h : 0 < s.sp.val) : (s.popPc h).st = s.st := rfl
@[simp] theorem State.popPc_fb (h : 0 < s.sp.val) : (s.popPc h).fb = s.fb := rfl
@[simp] theorem State.popPc_keys (h : 0 < s.sp.val) : (s.popPc h).keys = s.keys := rfl
@[simp] theorem State.popPc_mem (h : 0 < s.sp.val) : (s.popPc h).mem = s.mem := rfl
@[simp] theorem State.popPc_halted (h : 0 < s.sp.val) : (s.popPc h).halted = s.halted := rfl
@[simp] theorem State.popPc_haltCause (h : 0 < s.sp.val) : (s.popPc h).haltCause = s.haltCause := rfl
@[simp] theorem State.popPc_report (h : 0 < s.sp.val) : (s.popPc h).report = s.report := rfl
@[simp] theorem State.popPc_draws (h : 0 < s.sp.val) : (s.popPc h).draws = s.draws := rfl
@[simp] theorem State.popPc_getV (h : 0 < s.sp.val) (y : Nibble) : (s.popPc h).getV y = s.getV y := rfl
@[simp] theorem State.popPc_pixel (h : 0 < s.sp.val) (p : Fin 2048) : (s.popPc h).pixel p = s.pixel p := rfl
@[simp] theorem State.popPc_keyDown (h : 0 < s.sp.val) (j : Nibble) : (s.popPc h).keyDown j = s.keyDown j := rfl

/-! ### skip -/

@[simp] theorem State.skip_v : (s.skip).v = s.v := rfl
@[simp] theorem State.skip_idx : (s.skip).idx = s.idx := rfl
@[simp] theorem State.skip_pc : (s.skip).pc = s.pc + 2 := rfl
@[simp] theorem State.skip_sp : (s.skip).sp = s.sp := rfl
@[simp] theorem State.skip_stack : (s.skip).stack = s.stack := rfl
@[simp] theorem State.skip_dt : (s.skip).dt = s.dt := rfl
@[simp] theorem State.skip_st : (s.skip).st = s.st := rfl
@[simp] theorem State.skip_fb : (s.skip).fb = s.fb := rfl
@[simp] theorem State.skip_keys : (s.skip).keys = s.keys := rfl
@[simp] theorem State.skip_mem : (s.skip).mem = s.mem := rfl
@[simp] theorem State.skip_halted : (s.skip).halted = s.halted := rfl
@[simp] theorem State.skip_haltCause : (s.skip).haltCause = s.haltCause := rfl
@[simp] theorem State.skip_report : (s.skip).report = s.report := rfl
@[simp] theorem State.skip_draws : (s.skip).draws = s.draws := rfl
@[simp] theorem State.skip_getV (y : Nibble) : (s.skip).getV y = s.getV y := rfl
@[simp] theorem State.skip_pixel (p : Fin 2048) : (s.skip).pixel p = s.pixel p := rfl
@[simp] theorem State.skip_keyDown (j : Nibble) : (s.skip).keyDown j = s.keyDown j := rfl

/-! ### The register file (R20) -/

theorem State.getV_setV (x y : Nibble) (b : Byte) :
    (s.setV x b).getV y = if x = y then b else s.getV y := by
  simp only [State.getV, State.setV, Vector.getElem_set, BitVec.toNat_inj]

@[simp] theorem State.getV_setV_self (x : Nibble) (b : Byte) : (s.setV x b).getV x = b := by
  simp [State.getV_setV]

theorem State.getV_setV_ne {x y : Nibble} (h : x ≠ y) (b : Byte) : (s.setV x b).getV y = s.getV y := by
  simp [State.getV_setV, h]

/-- Two register files that agree at every index are equal. -/
theorem State.v_ext {s t : State} (h : ∀ x, t.getV x = s.getV x) : t.v = s.v := by
  apply Vector.ext
  intro i hi
  have := h (BitVec.ofNat 4 i)
  simpa [State.getV, Nat.mod_eq_of_lt hi] using this

@[simp] theorem State.setV_setV (x : Nibble) (b c : Byte) : (s.setV x b).setV x c = s.setV x c := by
  simp [State.setV]

theorem State.setV_comm {x y : Nibble} (h : x ≠ y) (b c : Byte) :
    (s.setV x b).setV y c = (s.setV y c).setV x b := by
  have h' : x.toNat ≠ y.toNat := fun e => h (BitVec.toNat_inj.mp e)
  simp only [State.setV, Vector.set_comm _ _ h']

/-- What a write of one register leaves alone: everything but that register. -/
theorem State.setV_frame (x : Nibble) (b : Byte) : s.setV x b = { s with v := (s.setV x b).v } := rfl

/-! ### The stack (R120) -/

theorem State.pushPc_sp (h : s.sp.val < 16) : (s.pushPc h).sp.val = s.sp.val + 1 := rfl

theorem State.pushPc_stack (h : s.sp.val < 16) (k : Fin 16) :
    (s.pushPc h).stack[k.val] = if s.sp.val = k.val then s.pc else s.stack[k.val] := by
  simp [State.pushPc, Vector.getElem_set]

theorem State.popPc_sp (h : 0 < s.sp.val) : (s.popPc h).sp.val = s.sp.val - 1 := rfl

theorem State.popPc_pc (h : 0 < s.sp.val) : (s.popPc h).pc = s.stack[s.sp.val - 1]'(by omega) := rfl

end Sys2Proof.Machine
end

