-- ==== Sys2Proof/Laws/Ops.lean ====
section
/-! SUPPORT. One lemma for each shared operation that says once everything it can do: raising a condition, the range
check, skipping, the register runs, the flag group, the keys, and drawing. -/

namespace Sys2Proof.Machine

variable (s : State)

/-! ### Raising a condition (R302, R303) -/

/-- All that raising does: the report, and for a halting cause the halt status. -/
theorem State.raise_eq (c : Cause) (a : Word) (op : Option Word) :
    s.raise c a op = { s with
      report := some ⟨c, a, op⟩
      halted := s.halted || c.halts
      haltCause := if c.halts then c else s.haltCause } := by
  cases c <;> simp [State.raise, Cause.halts, State.setReport, State.setHalt]

/-- The same from an instruction's rule. -/
theorem State.raiseFrom_eq (c : Cause) (i : Instr) :
    s.raiseFrom c i = { s with
      report := some ⟨c, s.pc - 2, some (encode i)⟩
      halted := s.halted || c.halts
      haltCause := if c.halts then c else s.haltCause } :=
  s.raise_eq c _ _

/-- Either the range exists and the instruction goes on, or MEM_RANGE is raised and nothing else happens (R59). -/
theorem State.checkRange_cases (hi : Nat) (i : Instr) (body : State → State) :
    (hi < Config.memSize ∧ s.checkRange hi i body = body s) ∨
    (Config.memSize ≤ hi ∧ s.checkRange hi i body = s.raiseFrom .memRange i) := by
  unfold State.checkRange
  split
  · exact .inl ⟨by assumption, rfl⟩
  · exact .inr ⟨by omega, rfl⟩

theorem State.checkRange_pos {hi : Nat} (h : hi < Config.memSize) (i : Instr) (body : State → State) :
    s.checkRange hi i body = body s := if_pos h

theorem State.checkRange_neg {hi : Nat} (h : Config.memSize ≤ hi) (i : Instr) (body : State → State) :
    s.checkRange hi i body = s.raiseFrom .memRange i := if_neg (by omega)

/-! ### Skipping (R140) -/

/-- A skip changes PC alone, and only when its condition holds. -/
theorem State.skipIf_eq (c : Bool) : s.skipIf c = { s with pc := if c then s.pc + 2 else s.pc } := by
  cases c <;> rfl

/-! ### The flag group (R167) -/

/-- The flag is written first and the value last, so with x = 0xF the value stays. -/
theorem State.getV_flagThenValue (x y : Nibble) (f : Byte) (value : State → Byte) :
    (s.flagThenValue x f value).getV y =
      if x = y then value (s.setV vF f) else if vF = y then f else s.getV y := by
  simp [State.flagThenValue, State.getV_setV]

theorem State.flagThenValue_frame (x : Nibble) (f : Byte) (value : State → Byte) :
    s.flagThenValue x f value = { s with v := (s.flagThenValue x f value).v } := rfl

/-! ### Register runs (R205, R206) -/

/-- Loading a run of registers changes registers alone. -/
theorem State.loadRegs_frame (k : Nat) (bs : List Byte) :
    s.loadRegs k bs = { s with v := (s.loadRegs k bs).v } := by
  induction bs generalizing s k with
  | nil => rfl
  | cons b bs ih => exact ih (s.setV (BitVec.ofNat 4 k) b) (k + 1)

/-- Each register of the run holds its byte of the list; every other register is as before. -/
theorem State.getV_loadRegs (k : Nat) (bs : List Byte) (h : k + bs.length ≤ 16) (y : Nibble) :
    (s.loadRegs k bs).getV y =
      if k ≤ y.toNat ∧ y.toNat < k + bs.length then bs.getD (y.toNat - k) 0 else s.getV y := by
  induction bs generalizing s k with
  | nil =>
    simp only [State.loadRegs, List.length_nil]
    rw [if_neg (by omega)]
  | cons b bs ih =>
    simp only [List.length_cons] at h ⊢
    simp only [State.loadRegs]
    rw [ih _ _ (by omega), State.getV_setV]
    have hk : (BitVec.ofNat 4 k).toNat = k := by simp; omega
    by_cases h1 : y.toNat = k
    · have hy : BitVec.ofNat 4 k = y := BitVec.eq_of_toNat_eq (by omega)
      rw [if_neg (by omega), if_pos hy, if_pos (by omega)]
      simp [h1]
    · have hy : BitVec.ofNat 4 k ≠ y := fun e => h1 (by rw [← e, hk])
      by_cases h2 : k + 1 ≤ y.toNat ∧ y.toNat < k + 1 + bs.length
      · rw [if_pos h2, if_pos (by omega), show y.toNat - k = (y.toNat - (k + 1)) + 1 by omega]
        simp
      · rw [if_neg h2, if_neg hy, if_neg (by omega)]

@[simp] theorem State.length_regsUpTo (x : Nibble) : (s.regsUpTo x).length = x.toNat + 1 := by
  simp [State.regsUpTo]

/-- The `k`-th byte of the run is V[k]. -/
theorem State.getD_regsUpTo (x k : Nibble) (h : k.toNat ≤ x.toNat) :
    (s.regsUpTo x).getD k.toNat 0 = s.getV k := by
  have hk : k.toNat < x.toNat + 1 := by omega
  simp [State.regsUpTo, List.getD_eq_getElem?_getD, hk]

@[simp] theorem length_decimalDigits (b : Byte) : (decimalDigits b).length = 3 := rfl

/-! ### Keys (R253) -/

/-- No key is the lowest exactly when no key is down. -/
theorem State.lowestKey_eq_none : s.lowestKey = none ↔ ∀ k, s.keyDown k = false := by
  simp only [State.lowestKey, List.find?_eq_none, List.mem_map, List.mem_range]
  constructor
  · intro h k
    have := h k ⟨k.toNat, k.isLt, by simp⟩
    simpa using this
  · rintro h _ ⟨i, -, rfl⟩
    simp [h]

/-- The lowest key is down, and no lower-numbered key is. -/
theorem State.lowestKey_eq_some (k : Nibble) :
    s.lowestKey = some k ↔ s.keyDown k = true ∧ ∀ j : Nibble, j.toNat < k.toNat → s.keyDown j = false := by
  have key : ∀ j : Nibble, BitVec.ofNat 4 j.toNat = j := fun j => by simp
  simp only [State.lowestKey, List.find?_map, Option.map_eq_some_iff]
  constructor
  · rintro ⟨i, hi, rfl⟩
    rw [List.find?_range_eq_some] at hi
    obtain ⟨h1, h2, h3⟩ := hi
    have hi16 : i < 16 := by simpa using h2
    have hto : (BitVec.ofNat 4 i).toNat = i := by simp; omega
    refine ⟨by simpa using h1, fun j hj => ?_⟩
    have := h3 j.toNat (by omega)
    simpa [key] using this
  · rintro ⟨h1, h2⟩
    refine ⟨k.toNat, ?_, key k⟩
    rw [List.find?_range_eq_some]
    refine ⟨by simpa [key] using h1, by simpa using k.isLt, fun j hj => ?_⟩
    have hto : (BitVec.ofNat 4 j).toNat = j := by have := k.isLt; simp; omega
    have := h2 (BitVec.ofNat 4 j) (by omega)
    simpa using this

/-! ### The framebuffer -/

theorem State.pixel_setFb_set (p q : Fin 2048) (b : Byte) :
    (s.setFb (s.fb.set p.val b)).pixel q = if p = q then b else s.pixel q := by
  simp only [State.pixel, State.setFb, Vector.getElem_set, Fin.val_inj]

@[simp] theorem State.pixel_clearFb (p : Fin 2048) : s.clearFb.pixel p = 0 := by
  simp [State.clearFb, State.pixel, State.setFb]

theorem State.pixel_drawCell (p q : Fin 2048) :
    (s.drawCell p).pixel q = if p = q then s.pixel p ^^^ 1 else s.pixel q := by
  unfold State.drawCell
  split
  · exact State.pixel_setFb_set (s.setV vF 1) p q _
  · exact State.pixel_setFb_set s p q _

theorem State.getV_drawCell (p : Fin 2048) (y : Nibble) :
    (s.drawCell p).getV y = if vF = y ∧ s.pixel p = 1 then 1 else s.getV y := by
  unfold State.drawCell
  split <;> rename_i h
  · simp [State.getV_setV, h]
  · rw [if_neg fun e => h e.2, State.setFb_getV]

theorem State.drawCell_frame (p : Fin 2048) :
    s.drawCell p = { s with v := (s.drawCell p).v, fb := (s.drawCell p).fb } := by
  unfold State.drawCell
  split <;> rfl

/-- Drawing a list of cells changes registers and framebuffer alone. -/
theorem State.drawCells_frame (cells : List (Fin 2048)) :
    cells.foldl State.drawCell s =
      { s with v := (cells.foldl State.drawCell s).v, fb := (cells.foldl State.drawCell s).fb } := by
  induction cells generalizing s with
  | nil => rfl
  | cons p cells ih =>
    rw [List.foldl_cons, ih (s.drawCell p), s.drawCell_frame p]

/-- Drawing a list of distinct cells toggles each of them once and no other. -/
theorem State.pixel_drawCells {cells : List (Fin 2048)} (h : cells.Nodup) (q : Fin 2048) :
    (cells.foldl State.drawCell s).pixel q = if q ∈ cells then s.pixel q ^^^ 1 else s.pixel q := by
  induction cells generalizing s with
  | nil => simp
  | cons p cells ih =>
    obtain ⟨hp, h⟩ := List.nodup_cons.mp h
    rw [List.foldl_cons, ih (s.drawCell p) h, State.pixel_drawCell]
    by_cases hq : q = p
    · subst hq; simp [hp]
    · simp [hq, Ne.symm hq]

/-- Drawing a list of distinct cells writes 1 to VF exactly when one of them held 1, and no other register. -/
theorem State.getV_drawCells {cells : List (Fin 2048)} (h : cells.Nodup) (y : Nibble) :
    (cells.foldl State.drawCell s).getV y =
      if vF = y ∧ ∃ p ∈ cells, s.pixel p = 1 then 1 else s.getV y := by
  induction cells generalizing s with
  | nil => simp
  | cons p cells ih =>
    obtain ⟨hp, h⟩ := List.nodup_cons.mp h
    have hsame : (∃ q ∈ cells, (s.drawCell p).pixel q = 1) ↔ ∃ q ∈ cells, s.pixel q = 1 := by
      constructor <;> rintro ⟨q, hq, h1⟩ <;> refine ⟨q, hq, ?_⟩ <;>
        have hne : p ≠ q := fun e => hp (e ▸ hq)
      · rwa [State.pixel_drawCell, if_neg hne] at h1
      · rwa [State.pixel_drawCell, if_neg hne]
    rw [List.foldl_cons, ih (s.drawCell p) h, State.getV_drawCell]
    simp only [hsame, List.exists_mem_cons_iff]
    by_cases h2 : ∃ q ∈ cells, s.pixel q = 1
    · by_cases hy : vF = y
      · rw [if_pos ⟨hy, h2⟩, if_pos ⟨hy, .inr h2⟩]
      · rw [if_neg fun e => hy e.1, if_neg fun e => hy e.1, if_neg fun e => hy e.1]
    · rw [if_neg fun e => h2 e.2]
      by_cases h1 : vF = y ∧ s.pixel p = 1
      · rw [if_pos h1, if_pos ⟨h1.1, .inl h1.2⟩]
      · rw [if_neg h1, if_neg fun e => e.2.elim (fun b => h1 ⟨e.1, b⟩) h2]

/-! ### The cells of a sprite (R232, R234) -/

theorem mem_rowCells (X Y : Nat) (b : Byte) (p : Fin 2048) :
    p ∈ rowCells X Y b ↔ ∃ c, c < 8 ∧ b.getLsbD (7 - c) = true ∧ p = fbCell (X + c) Y := by
  simp only [rowCells, List.mem_map, List.mem_filter, List.mem_range, and_assoc, eq_comm (a := p)]

/-- A cell is covered exactly when some set bit of some row falls on it. -/
theorem mem_spriteCells (X Y : Nat) (rows : List Byte) (p : Fin 2048) :
    p ∈ spriteCells X Y rows ↔ ∃ r, r < rows.length ∧ ∃ c, c < 8 ∧
      (rows.getD r 0).getLsbD (7 - c) = true ∧ p = fbCell (X + c) (Y + r) := by
  induction rows generalizing Y with
  | nil => simp [spriteCells]
  | cons b bs ih =>
    simp only [spriteCells, List.mem_append, mem_rowCells, ih, List.length_cons]
    constructor
    · rintro (⟨c, hc, hb, hp⟩ | ⟨r, hr, c, hc, hb, hp⟩)
      · exact ⟨0, by omega, c, hc, by simpa using hb, by simpa using hp⟩
      · exact ⟨r + 1, by omega, c, hc, by simpa using hb, by rw [hp]; congr 1; omega⟩
    · rintro ⟨r, hr, c, hc, hb, hp⟩
      cases r with
      | zero => exact .inl ⟨c, hc, by simpa using hb, by simpa using hp⟩
      | succ r => exact .inr ⟨r, by omega, c, hc, by simpa using hb, by rw [hp]; congr 1; omega⟩

end Sys2Proof.Machine
end

