-- ==== Sys2Proof/Laws/Exec.lean ====
section
/-! SUPPORT. The laws of what several meanings share: skipping on a key and drawing a sprite; and for each instruction that can halt, its two ways to end. -/

namespace Sys2Proof.Machine

variable (s : State)

/-- SKP and SKNP either raise KEY_RANGE or move PC alone (R145, R146). -/
theorem State.skipOnKey_cases (x : Nibble) (i : Instr) (down : Bool) :
    ((s.getV x).toNat > 0xF ∧ s.skipOnKey x i down = s.raiseFrom .keyRange i) ∨
    ((s.getV x).toNat ≤ 0xF ∧ s.skipOnKey x i down =
      { s with pc := if s.keyDown ((s.getV x).setWidth 4) == down then s.pc + 2 else s.pc }) := by
  unfold State.skipOnKey
  split
  · exact .inl ⟨by assumption, rfl⟩
  · exact .inr ⟨by omega, State.skipIf_eq s _⟩

/-! ### The instructions that can halt: each either does its own effect or raises its one condition (R306) -/

theorem execRet_cases (x : Nibble) :
    (∃ h : 0 < s.sp.val, execRet x s = .next (s.popPc h)) ∨
    (s.sp.val = 0 ∧ execRet x s = .next (s.raiseFrom .stackUnderflow (.ret x))) := by
  by_cases h : s.sp.val = 0
  · exact .inr ⟨h, by simp [execRet, h]⟩
  · exact .inl ⟨by omega, by simp [execRet, h]⟩

theorem execCall_cases (nnn : Addr) :
    (∃ h : s.sp.val < 16, execCall nnn s = .next ((s.pushPc h).setPc (addrOperand nnn))) ∨
    (s.sp.val = 16 ∧ execCall nnn s = .next (s.raiseFrom .stackOverflow (.call nnn))) := by
  by_cases h : s.sp.val = 16
  · exact .inr ⟨h, by simp [execCall, h]⟩
  · exact .inl ⟨by have := s.sp.isLt; omega, by simp [execCall, h]⟩

theorem execSkp_cases (x : Nibble) :
    ((s.getV x).toNat ≤ 0xF ∧ execSkp x s = .next
      { s with pc := if s.keyDown ((s.getV x).setWidth 4) then s.pc + 2 else s.pc }) ∨
    ((s.getV x).toNat > 0xF ∧ execSkp x s = .next (s.raiseFrom .keyRange (.skp x))) := by
  rcases s.skipOnKey_cases x (.skp x) true with ⟨h, e⟩ | ⟨h, e⟩
  · exact .inr ⟨h, congrArg _ e⟩
  · exact .inl ⟨h, by rw [execSkp, e]; simp⟩

theorem execSknp_cases (x : Nibble) :
    ((s.getV x).toNat ≤ 0xF ∧ execSknp x s = .next
      { s with pc := if s.keyDown ((s.getV x).setWidth 4) then s.pc else s.pc + 2 }) ∨
    ((s.getV x).toNat > 0xF ∧ execSknp x s = .next (s.raiseFrom .keyRange (.sknp x))) := by
  rcases s.skipOnKey_cases x (.sknp x) false with ⟨h, e⟩ | ⟨h, e⟩
  · exact .inr ⟨h, congrArg _ e⟩
  · refine .inl ⟨h, ?_⟩
    rw [execSknp, e]
    cases s.keyDown ((s.getV x).setWidth 4) <;> rfl

theorem execLdBVx_cases (x : Nibble) :
    (s.dataAddr 2 < 4096 ∧ execLdBVx x s = .next
      (s.setMem (s.mem.writeBytes (s.dataAddr 0) (decimalDigits (s.getV x))))) ∨
    (4096 ≤ s.dataAddr 2 ∧ execLdBVx x s = .next (s.raiseFrom .memRange (.ldBVx x))) :=
  (s.checkRange_cases _ _ _).imp (fun h => ⟨h.1, congrArg _ h.2⟩) fun h => ⟨h.1, congrArg _ h.2⟩

theorem execLdMemVx_cases (x : Nibble) :
    (s.dataAddr x.toNat < 4096 ∧ execLdMemVx x s = .next
      ((s.setMem (s.mem.writeBytes (s.dataAddr 0) (s.regsUpTo x))).setIdx (s.idxPast x))) ∨
    (4096 ≤ s.dataAddr x.toNat ∧ execLdMemVx x s = .next (s.raiseFrom .memRange (.ldMemVx x))) :=
  (s.checkRange_cases _ _ _).imp (fun h => ⟨h.1, congrArg _ h.2⟩) fun h => ⟨h.1, congrArg _ h.2⟩

theorem execLdVxMem_cases (x : Nibble) :
    (s.dataAddr x.toNat < 4096 ∧ execLdVxMem x s = .next
      ((s.loadRegs 0 (s.mem.readBytes (s.dataAddr 0) (x.toNat + 1))).setIdx (s.idxPast x))) ∨
    (4096 ≤ s.dataAddr x.toNat ∧ execLdVxMem x s = .next (s.raiseFrom .memRange (.ldVxMem x))) :=
  (s.checkRange_cases _ _ _).imp (fun h => ⟨h.1, congrArg _ h.2⟩) fun h => ⟨h.1, congrArg _ h.2⟩

/-- A draw in range draws the `n` bytes from I up, also for n = 0, where there are none (R236). -/
theorem execDrw_cases (x y n : Nibble) :
    (s.dataAddr n.toNat ≤ 4096 ∨ n = 0) ∧ execDrw x y n s = .next
      (s.drawSprite (s.getV x).toNat (s.getV y).toNat (s.mem.readBytes (s.dataAddr 0) n.toNat)) ∨
    ((n ≠ 0 ∧ 4096 < s.dataAddr n.toNat) ∧ execDrw x y n s = .next (s.raiseFrom .memRange (.drw x y n))) := by
  by_cases hn : n = 0
  · subst hn
    exact .inl ⟨.inr rfl, by simp [execDrw, Memory.readBytes]⟩
  · have hpos : 0 < n.toNat := by
      rcases Nat.eq_zero_or_pos n.toNat with h | h
      · exact absurd (BitVec.eq_of_toNat_eq h) hn
      · exact h
    have heq : execDrw x y n s = .next (s.checkRange (s.dataAddr (n.toNat - 1)) (.drw x y n) fun s =>
      s.drawSprite (s.getV x).toNat (s.getV y).toNat (s.mem.readBytes (s.dataAddr 0) n.toNat)) := by
      rw [execDrw, if_neg hn]
    rw [heq]
    rcases s.checkRange_cases (s.dataAddr (n.toNat - 1)) (.drw x y n) (fun s =>
      s.drawSprite (s.getV x).toNat (s.getV y).toNat (s.mem.readBytes (s.dataAddr 0) n.toNat)) with ⟨h, e⟩ | ⟨h, e⟩ <;>
      simp only [State.dataAddr, Config.memSize] at h
    · exact .inl ⟨.inl (by simp only [State.dataAddr]; omega), congrArg _ e⟩
    · exact .inr ⟨⟨hn, by simp only [State.dataAddr]; omega⟩, congrArg _ e⟩

/-! ### Drawing -/

/-- Drawing a sprite changes registers and framebuffer alone. -/
theorem State.drawSprite_frame (X Y : Nat) (rows : List Byte) :
    s.drawSprite X Y rows =
      { s with v := (s.drawSprite X Y rows).v, fb := (s.drawSprite X Y rows).fb } := by
  unfold State.drawSprite
  rw [State.drawCells_frame]
  rfl

/-- Of the registers, drawing a sprite writes VF alone, even before anything is known of its cells. -/
theorem State.getV_drawSprite_ne (X Y : Nat) (rows : List Byte) {y : Nibble} (h : y ≠ vF) :
    (s.drawSprite X Y rows).getV y = s.getV y := by
  have key : ∀ (cells : List (Fin 2048)) (u : State), (cells.foldl State.drawCell u).getV y = u.getV y := by
    intro cells
    induction cells with
    | nil => intro u; rfl
    | cons p cells ih => intro u; rw [List.foldl_cons, ih, State.getV_drawCell, if_neg fun e => h e.1.symm]
  rw [State.drawSprite, key, State.getV_setV_ne s (Ne.symm h)]

/-- The pixels after a draw whose cells are distinct. -/
theorem State.pixel_drawSprite {X Y : Nat} {rows : List Byte} (h : (spriteCells X Y rows).Nodup) (p : Fin 2048) :
    (s.drawSprite X Y rows).pixel p = if p ∈ spriteCells X Y rows then s.pixel p ^^^ 1 else s.pixel p := by
  rw [State.drawSprite, State.pixel_drawCells _ h, State.setV_pixel]

/-- The collision flag after a draw whose cells are distinct (R233). -/
theorem State.getV_vF_drawSprite {X Y : Nat} {rows : List Byte} (h : (spriteCells X Y rows).Nodup) :
    (s.drawSprite X Y rows).getV vF = if ∃ p ∈ spriteCells X Y rows, s.pixel p = 1 then 1 else 0 := by
  rw [State.drawSprite, State.getV_drawCells _ h]
  simp only [true_and, State.setV_pixel, State.getV_setV_self]

end Sys2Proof.Machine
end

