-- ==== Sys2Proof/Laws/Step.lean ====
section
/-! SUPPORT. What a step can do, said once: the four ways it ends, and the states it leaves, field by field. -/

namespace Sys2Proof.Machine

variable (s : State)

theorem State.fetchable_iff : s.fetchable = true ↔ s.pc.toNat + 1 < 4096 := decide_eq_true_iff

theorem State.not_fetchable_iff : s.fetchable = false ↔ 4096 ≤ s.pc.toNat + 1 := by
  rw [← Bool.not_eq_true, State.fetchable_iff, Nat.not_lt]

theorem State.beginInstr_eq : s.beginInstr = { s with pc := s.pc + 2, report := none } := rfl

theorem State.clearReport_eq : s.clearReport = { s with report := none } := rfl

/-- FETCH_RANGE: halted, with PC where it was (R100). -/
theorem State.fetchFails_eq : s.fetchFails = { s with
    halted := true
    haltCause := .fetchRange
    report := some ⟨.fetchRange, s.pc, none⟩ } := rfl

/-- UNKNOWN_OPCODE: a report, and PC past the word (R104). -/
theorem State.unknownWord_eq (op : Word) : s.unknownWord op = { s with
    pc := s.pc + 2
    report := some ⟨.unknownOpcode, s.pc, some op⟩ } := rfl

/-- Placing a word where the next fetch reads it keeps the canonical form. -/
theorem State.placeWord_wf (op : Word) (h : Memory.wf s.mem) : Memory.wf (s.placeWord op).mem := by
  unfold State.placeWord
  split
  · rename_i hf
    rw [State.fetchable_iff] at hf
    exact Memory.write_wf (Memory.write_wf h (by simp only [Config.memSize]; omega) _)
      (by simp only [Config.memSize]; omega) _
  · exact h

/-- Every way a step can end (R105). -/
theorem step_cases {s t : State} (h : step s = .next t) :
    (s.halted = true ∧ t = s.clearReport) ∨
    (s.halted = false ∧ s.fetchable = false ∧ t = s.fetchFails) ∨
    (s.halted = false ∧ s.fetchable = true ∧ (∀ i, decode s.fetchWord ≠ .ok i) ∧ t = s.unknownWord s.fetchWord) ∨
    (s.halted = false ∧ s.fetchable = true ∧
      ∃ i, decode s.fetchWord = .ok i ∧ exec i s.beginInstr = .next t) := by
  simp only [step, cycle, runWord] at h
  split at h
  · cases h
    exact .inl ⟨by assumption, rfl⟩
  · rename_i hh
    split at h
    · rename_i hf
      split at h
      · rename_i i hi
        exact .inr (.inr (.inr ⟨by simpa using hh, hf, i, hi, h⟩))
      · rename_i e he
        cases h
        exact .inr (.inr (.inl ⟨by simpa using hh, hf, by simp [he], rfl⟩))
    · rename_i hf
      cases h
      exact .inr (.inl ⟨by simpa using hh, by simpa using hf, rfl⟩)

end Sys2Proof.Machine
end

