-- ==== Sys2Proof/Laws/HostPort.lean ====
section
/-! SUPPORT. The laws of the host's operations: when an image fits, and what each operation that is not a step leaves. -/

namespace Sys2Proof.Machine

theorem imageFits_iff (image : List Byte) : imageFits image = true ↔ image.length ≤ 3584 := decide_eq_true_iff

theorem not_imageFits_iff (image : List Byte) : imageFits image = false ↔ 3584 < image.length := by
  rw [← Bool.not_eq_true, imageFits_iff, Nat.not_le]

/-- The tick changes the two timers alone. -/
theorem State.tick_frame (s : State) : s.tick = { s with dt := s.tick.dt, st := s.tick.st } := rfl

/-- Writing the keys changes the key register alone. -/
theorem State.setKeys_frame (s : State) (k : BitVec 16) : s.setKeys k = { s with keys := (s.setKeys k).keys } := rfl

/-- A load changes memory alone. -/
theorem State.load_frame (s : State) (image : List Byte) : s.load image = { s with mem := (s.load image).mem } := by
  unfold State.load
  split <;> rfl

/-- A load keeps the canonical form: an image that fits lies below 4096. -/
theorem State.load_wf (s : State) (image : List Byte) (h : Memory.wf s.mem) : Memory.wf (s.load image).mem := by
  unfold State.load
  split
  · rename_i hf
    rw [imageFits_iff] at hf
    exact Memory.writeBytes_wf h (by simp only [Config.progBase, Config.memSize]; omega)
  · exact h

/-- Every way a host operation can end: the step's, or its own state. -/
theorem hostOp_cases {o : HostOp} {s t : State} {r : Reply} (h : hostOp o s = .next (t, r)) :
    (o = .step ∧ step s = .next t) ∨ t = s.restart ∨ (∃ image, t = s.load image) ∨ (∃ k, t = s.setKeys k) ∨
      t = s.tick ∨ t = s := by
  cases o <;> simp only [hostOp] at h
  case step =>
    split at h <;> cases h
    exact .inl ⟨rfl, by assumption⟩
  case reset => cases h; simp
  case load image => cases h; exact .inr (.inr (.inl ⟨image, rfl⟩))
  case setKeys k => cases h; exact .inr (.inr (.inr (.inl ⟨k, rfl⟩)))
  case tick => cases h; simp
  all_goals cases h; simp

end Sys2Proof.Machine
end

