-- ==== Sys2Proof/Laws/PerInstr.lean ====
section
/-! SUPPORT. One statement about the syntax of every instruction: its word, with the bits its row leaves to operands
masked away, is the pattern of its own row of the opcode map (R88). -/

namespace Sys2Proof.Laws.OpcodeRow

-- One theorem at a time: elaborated side by side, these many small theorems each hold a thread of their own.
set_option Elab.async false

/-- The instruction's word selects the row that bears the instruction's number. -/
def Statement (i : Instr) : Prop :=
  ∃ r ∈ opcodeMap, r.number = i.row ∧ encode i &&& r.mask = r.pattern

/-- A row whose mask is 0xF000 looks at the class alone. -/
theorem of_class (k : Nat) {i : Instr} {p : Word} (hk : k = i.row) (hr : ⟨k, p, 0xF000⟩ ∈ opcodeMap)
    (hp : packXYN (fieldClass (encode i)) 0 0 0 = p) : Statement i :=
  ⟨_, hr, hk, by rw [and_F000, hp]⟩

/-- A row whose mask is 0xF00F looks at the class and the low nibble. -/
theorem of_class_n (k : Nat) {i : Instr} {p : Word} (hk : k = i.row) (hr : ⟨k, p, 0xF00F⟩ ∈ opcodeMap)
    (hp : packXYN (fieldClass (encode i)) 0 0 (fieldN (encode i)) = p) : Statement i :=
  ⟨_, hr, hk, by rw [and_F00F, hp]⟩

/-- A row whose mask is 0xF0FF looks at the class and the low byte. -/
theorem of_class_nn (k : Nat) {i : Instr} {p : Word} {c y n : Nibble} (hk : k = i.row) (hr : ⟨k, p, 0xF0FF⟩ ∈ opcodeMap)
    (hc : fieldClass (encode i) = c) (hn : fieldNN (encode i) = y ++ n) (hp : packXYN c 0 y n = p) : Statement i := by
  obtain ⟨h1, h2⟩ := (fieldNN_eq_iff _ _ _).mp hn
  exact ⟨_, hr, hk, by rw [and_F0FF, hc, h1, h2, hp]⟩

theorem cls (x : Nibble) : Statement (.cls x) :=
  of_class_nn 1 (p := 0x00E0) (c := 0x0) (y := 0xE) (n := 0x0) rfl (by decide)
    (by simp [encode]) (by simp [encode]) (by decide)

theorem ret (x : Nibble) : Statement (.ret x) :=
  of_class_nn 2 (p := 0x00EE) (c := 0x0) (y := 0xE) (n := 0xE) rfl (by decide)
    (by simp [encode]) (by simp [encode]) (by decide)

theorem jp (nnn : Addr) : Statement (.jp nnn) :=
  of_class 3 (p := 0x1000) rfl (by decide) (by rw [encode]; simp; decide)

theorem call (nnn : Addr) : Statement (.call nnn) :=
  of_class 4 (p := 0x2000) rfl (by decide) (by rw [encode]; simp; decide)

theorem seImm (x : Nibble) (nn : Byte) : Statement (.seImm x nn) :=
  of_class 5 (p := 0x3000) rfl (by decide) (by rw [encode]; simp; decide)

theorem sneImm (x : Nibble) (nn : Byte) : Statement (.sneImm x nn) :=
  of_class 6 (p := 0x4000) rfl (by decide) (by rw [encode]; simp; decide)

theorem seReg (x y n : Nibble) : Statement (.seReg x y n) :=
  of_class 7 (p := 0x5000) rfl (by decide) (by rw [encode]; simp; decide)

theorem ldImm (x : Nibble) (nn : Byte) : Statement (.ldImm x nn) :=
  of_class 8 (p := 0x6000) rfl (by decide) (by rw [encode]; simp; decide)

theorem addImm (x : Nibble) (nn : Byte) : Statement (.addImm x nn) :=
  of_class 9 (p := 0x7000) rfl (by decide) (by rw [encode]; simp; decide)

theorem ldReg (x y : Nibble) : Statement (.ldReg x y) :=
  of_class_n 10 (p := 0x8000) rfl (by decide) (by rw [encode]; simp; decide)

theorem or (x y : Nibble) : Statement (.or x y) :=
  of_class_n 11 (p := 0x8001) rfl (by decide) (by rw [encode]; simp; decide)

theorem and (x y : Nibble) : Statement (.and x y) :=
  of_class_n 12 (p := 0x8002) rfl (by decide) (by rw [encode]; simp; decide)

theorem xor (x y : Nibble) : Statement (.xor x y) :=
  of_class_n 13 (p := 0x8003) rfl (by decide) (by rw [encode]; simp; decide)

theorem addReg (x y : Nibble) : Statement (.addReg x y) :=
  of_class_n 14 (p := 0x8004) rfl (by decide) (by rw [encode]; simp; decide)

theorem sub (x y : Nibble) : Statement (.sub x y) :=
  of_class_n 15 (p := 0x8005) rfl (by decide) (by rw [encode]; simp; decide)

theorem shr (x y : Nibble) : Statement (.shr x y) :=
  of_class_n 16 (p := 0x8006) rfl (by decide) (by rw [encode]; simp; decide)

theorem subn (x y : Nibble) : Statement (.subn x y) :=
  of_class_n 17 (p := 0x8007) rfl (by decide) (by rw [encode]; simp; decide)

theorem shl (x y : Nibble) : Statement (.shl x y) :=
  of_class_n 18 (p := 0x800E) rfl (by decide) (by rw [encode]; simp; decide)

theorem sneReg (x y n : Nibble) : Statement (.sneReg x y n) :=
  of_class 19 (p := 0x9000) rfl (by decide) (by rw [encode]; simp; decide)

theorem ldI (nnn : Addr) : Statement (.ldI nnn) :=
  of_class 20 (p := 0xA000) rfl (by decide) (by rw [encode]; simp; decide)

theorem rnd (x : Nibble) (nn : Byte) : Statement (.rnd x nn) :=
  of_class 21 (p := 0xC000) rfl (by decide) (by rw [encode]; simp; decide)

theorem drw (x y n : Nibble) : Statement (.drw x y n) :=
  of_class 22 (p := 0xD000) rfl (by decide) (by rw [encode]; simp; decide)

theorem skp (x : Nibble) : Statement (.skp x) :=
  of_class_nn 23 (p := 0xE09E) (c := 0xE) (y := 0x9) (n := 0xE) rfl (by decide)
    (by simp [encode]) (by simp [encode]) (by decide)

theorem sknp (x : Nibble) : Statement (.sknp x) :=
  of_class_nn 24 (p := 0xE0A1) (c := 0xE) (y := 0xA) (n := 0x1) rfl (by decide)
    (by simp [encode]) (by simp [encode]) (by decide)

theorem ldVxDt (x : Nibble) : Statement (.ldVxDt x) :=
  of_class_nn 25 (p := 0xF007) (c := 0xF) (y := 0x0) (n := 0x7) rfl (by decide)
    (by simp [encode]) (by simp [encode]) (by decide)

theorem ldDtVx (x : Nibble) : Statement (.ldDtVx x) :=
  of_class_nn 26 (p := 0xF015) (c := 0xF) (y := 0x1) (n := 0x5) rfl (by decide)
    (by simp [encode]) (by simp [encode]) (by decide)

theorem ldStVx (x : Nibble) : Statement (.ldStVx x) :=
  of_class_nn 27 (p := 0xF018) (c := 0xF) (y := 0x1) (n := 0x8) rfl (by decide)
    (by simp [encode]) (by simp [encode]) (by decide)

theorem ldVxK (x : Nibble) : Statement (.ldVxK x) :=
  of_class_nn 28 (p := 0xF00A) (c := 0xF) (y := 0x0) (n := 0xA) rfl (by decide)
    (by simp [encode]) (by simp [encode]) (by decide)

theorem addIVx (x : Nibble) : Statement (.addIVx x) :=
  of_class_nn 29 (p := 0xF01E) (c := 0xF) (y := 0x1) (n := 0xE) rfl (by decide)
    (by simp [encode]) (by simp [encode]) (by decide)

theorem ldFVx (x : Nibble) : Statement (.ldFVx x) :=
  of_class_nn 30 (p := 0xF029) (c := 0xF) (y := 0x2) (n := 0x9) rfl (by decide)
    (by simp [encode]) (by simp [encode]) (by decide)

theorem ldBVx (x : Nibble) : Statement (.ldBVx x) :=
  of_class_nn 31 (p := 0xF033) (c := 0xF) (y := 0x3) (n := 0x3) rfl (by decide)
    (by simp [encode]) (by simp [encode]) (by decide)

theorem ldMemVx (x : Nibble) : Statement (.ldMemVx x) :=
  of_class_nn 32 (p := 0xF055) (c := 0xF) (y := 0x5) (n := 0x5) rfl (by decide)
    (by simp [encode]) (by simp [encode]) (by decide)

theorem ldVxMem (x : Nibble) : Statement (.ldVxMem x) :=
  of_class_nn 33 (p := 0xF065) (c := 0xF) (y := 0x6) (n := 0x5) rfl (by decide)
    (by simp [encode]) (by simp [encode]) (by decide)

end Sys2Proof.Laws.OpcodeRow
end

