-- ==== Sys2Proof/Tests/Slice0.lean ====
section
/-! SUPPORT. The model's own tests. Every expected result is copied from the spec: the encodings of R88, the worked
examples E1 to E9 and the vectors of 95_test_vectors.md (section numbers 2.1 to 2.7), or a numbered rule. The last part
holds, for every obligation that has hypotheses, a named theorem with a concrete case that meets them together. -/

namespace Sys2Proof.Tests

-- One theorem at a time: elaborated side by side, these many small theorems each hold a thread of their own.
set_option Elab.async false

open Sys2Proof Sys2Proof.Machine

/-! ### Helpers -/

/-- What `f` reads from the next state, when there is one. -/
def nextOf {α : Type} (o : Host.Outcome State Fault Refusal) (f : State → α) : Option α :=
  match o with
  | .next t => some (f t)
  | .fault _ => none
  | .refused _ => none

/-- One step of `s` with the word `w` placed at its PC. -/
def ran {α : Type} (w : Nat) (s : State) (f : State → α) : Option α := nextOf (step (s.withFetchWord 16 w)) f

/-- Reset with some registers set. -/
def regs (l : List (Nibble × Byte)) : State := l.foldl (fun s p => s.setV p.1 p.2) State.reset

/-- Memory with some bytes written. -/
def poke (s : State) (base : Nat) (bs : List Byte) : State := s.setMem (s.mem.writeBytes base bs)

/-! ### Decoding: a word of each row of R88, written out from its pattern -/

/-- Rows 1 to 4: 0?E0, 0?EE, 1nnn, 2nnn. -/
theorem test_decode_control :
    decode 0x00E0 = .ok (.cls 0x0) ∧ decode 0x0FEE = .ok (.ret 0xF) ∧ decode 0x1204 = .ok (.jp 0x204) ∧
    decode 0x2FFE = .ok (.call 0xFFE) := by decide

/-- Rows 5 to 9 and 19: 3xnn, 4xnn, 5xyn, 6xnn, 7xnn, 9xyn. -/
theorem test_decode_immediates :
    decode 0x332A = .ok (.seImm 0x3 0x2A) ∧ decode 0x4001 = .ok (.sneImm 0x0 0x01) ∧
    decode 0x5127 = .ok (.seReg 0x1 0x2 0x7) ∧ decode 0x6A42 = .ok (.ldImm 0xA 0x42) ∧
    decode 0x7F01 = .ok (.addImm 0xF 0x01) ∧ decode 0x9127 = .ok (.sneReg 0x1 0x2 0x7) := by decide

/-- Rows 10 to 18: 8xy0 to 8xy7 and 8xyE. -/
theorem test_decode_alu :
    decode 0x8120 = .ok (.ldReg 0x1 0x2) ∧ decode 0x8121 = .ok (.or 0x1 0x2) ∧ decode 0x8122 = .ok (.and 0x1 0x2) ∧
    decode 0x8123 = .ok (.xor 0x1 0x2) ∧ decode 0x8124 = .ok (.addReg 0x1 0x2) ∧ decode 0x8125 = .ok (.sub 0x1 0x2) ∧
    decode 0x8126 = .ok (.shr 0x1 0x2) ∧ decode 0x8127 = .ok (.subn 0x1 0x2) ∧ decode 0x812E = .ok (.shl 0x1 0x2) := by
  decide

/-- Rows 20 to 24: Annn, Cxnn, Dxyn, Ex9E, ExA1. -/
theorem test_decode_index_display_keys :
    decode 0xA20A = .ok (.ldI 0x20A) ∧ decode 0xC30F = .ok (.rnd 0x3 0x0F) ∧ decode 0xD125 = .ok (.drw 0x1 0x2 0x5) ∧
    decode 0xE59E = .ok (.skp 0x5) ∧ decode 0xE5A1 = .ok (.sknp 0x5) := by decide

/-- Rows 25 to 33: the nine words of class 0xF. -/
theorem test_decode_class_f :
    decode 0xF307 = .ok (.ldVxDt 0x3) ∧ decode 0xF315 = .ok (.ldDtVx 0x3) ∧ decode 0xF318 = .ok (.ldStVx 0x3) ∧
    decode 0xF10A = .ok (.ldVxK 0x1) ∧ decode 0xF41E = .ok (.addIVx 0x4) ∧ decode 0xF029 = .ok (.ldFVx 0x0) ∧
    decode 0xF333 = .ok (.ldBVx 0x3) ∧ decode 0xF255 = .ok (.ldMemVx 0x2) ∧ decode 0xF265 = .ok (.ldVxMem 0x2) := by
  decide

/-- Section 2.1: words that are unknown opcodes. -/
theorem test_decode_unknown :
    decode 0x0000 = .error (.unknownOpcode 0x0000) ∧ decode 0x0123 = .error (.unknownOpcode 0x0123) ∧
    decode 0x00E1 = .error (.unknownOpcode 0x00E1) ∧ decode 0xB123 = .error (.unknownOpcode 0xB123) ∧
    decode 0x8008 = .error (.unknownOpcode 0x8008) ∧ decode 0x800F = .error (.unknownOpcode 0x800F) ∧
    decode 0xE000 = .error (.unknownOpcode 0xE000) ∧ decode 0xF0FF = .error (.unknownOpcode 0xF0FF) := by decide

/-- R80, R60: two bytes, the first one high; one byte alone is refused by name. -/
theorem test_decodeBytes :
    decodeBytes [0x6A, 0x42, 0x99] = .ok (.ldImm 0xA 0x42, [0x99]) ∧ decodeBytes [0x6A] = .error .truncated ∧
    decodeBytes [0xB1, 0x23] = .error (.unknownOpcode 0xB123) := by decide

/-- R81: words written out from the patterns are what the encoder makes. -/
theorem test_encode :
    encode (.cls 0x1) = 0x01E0 ∧ encode (.call 0x208) = 0x2208 ∧ encode (.seReg 0x1 0x2 0x7) = 0x5127 ∧
    encode (.shl 0x2 0xF) = 0x82FE ∧ encode (.ldVxMem 0xF) = 0xFF65 := by decide

/-- R82: the smallest and the largest value of every kind of field are well formed. There is no ill-formed term to
refuse: each operand's type has exactly its field's width, and WellFormed makes no check. -/
theorem test_wellFormed_boundaries :
    (Instr.cls 0x0).wellFormed = true ∧ (Instr.cls 0xF).wellFormed = true ∧ (Instr.jp 0xFFF).wellFormed = true ∧
    (Instr.ldImm 0xF 0xFF).wellFormed = true ∧ (Instr.drw 0xF 0xF 0xF).wellFormed = true := by decide

/-- The table's numbering: bits above `nbits` are 0. -/
theorem test_decodeTableWord :
    decodeTableWord 16 0x6A42 = some (.ldImm 0xA 0x42) ∧ decodeTableWord 16 0xB000 = none ∧
    decodeTableWord 16 0x16A42 = some (.ldImm 0xA 0x42) := by decide

/-! ### Memory -/

/-- The canonical form: writing back what reset leaves removes the entry (R54: M[000] = F0). -/
theorem test_memory_canonical :
    Memory.write (Memory.write [] 0x000 0xFF) 0x000 0xF0 = [] ∧ Memory.write [] 0x300 0x00 = [] ∧
    Memory.write (Memory.write [] 0x301 0x02) 0x300 0x01 = [(0x300, 0x01), (0x301, 0x02)] := by decide

/-- An ill-formed memory is told apart: out of order, repeated, equal to reset's byte, or outside the 4096 bytes. -/
theorem test_memory_wf :
    Memory.wf [(0x300, 1), (0x301, 2)] ∧ ¬ Memory.wf [(0x301, 2), (0x300, 1)] ∧ ¬ Memory.wf [(0x300, 1), (0x300, 2)] ∧
    ¬ Memory.wf [(0x300, 0)] ∧ ¬ Memory.wf [(0x1000, 1)] := by decide

/-- R54: the last glyph, "F", ends at 0x04F, and 0x050 holds 0. -/
theorem test_font :
    Memory.readBytes [] 0x04B 6 = [0xF0, 0x80, 0xF0, 0x80, 0x80, 0x00] ∧ Memory.readBytes [] 0x005 2 = [0x20, 0x60] := by
  decide

/-! ### The step (section 2.1) -/

/-- PC = 0x200, word 0000: reported, PC = 202, not halted. -/
theorem test_step_unknown :
    ran 0x0000 State.reset (fun t => (t.report, t.pc, t.halted)) =
      some (some ⟨.unknownOpcode, 0x200, some 0x0000⟩, 0x202, false) := by decide +kernel

/-- PC = 0xFFF: FETCH_RANGE, PC stays, no word. -/
theorem test_step_fetchRange :
    nextOf (step (State.reset.setPc 0xFFF)) (fun t => (t.report, t.pc, t.haltCause)) =
      some (some ⟨.fetchRange, 0xFFF, none⟩, 0xFFF, .fetchRange) := by decide +kernel

/-- PC = 0xFFE, word 6011: V0 = 11, PC = 1000. -/
theorem test_step_last_address :
    ran 0x6011 (State.reset.setPc 0xFFE) (fun t => (t.getV 0x0, t.pc)) = some (0x11, 0x1000) := by decide +kernel

/-- halted = 1: nothing changes, no report. -/
theorem test_step_halted :
    ran 0x6A42 (State.reset.setHalt .keyRange) (fun t => (t.getV 0xA, t.pc, t.report)) = some (0x00, 0x200, none) := by
  decide +kernel

/-! ### Control flow (section 2.2) -/

theorem test_jp : ran 0x1333 State.reset (fun t => t.pc) = some 0x333 := by decide +kernel

/-- E7, first half. -/
theorem test_call :
    ran 0x2208 State.reset (fun t => (t.pc, t.sp.val, t.stack[0])) = some (0x208, 1, 0x202) := by decide +kernel

theorem test_call_overflow :
    ran 0x2208 { State.reset with sp := 16 } (fun t => (t.haltCause, t.pc, t.sp.val)) =
      some (.stackOverflow, 0x202, 16) := by decide +kernel

/-- E7, second half: the entry keeps its value. -/
theorem test_ret :
    ran 0x00EE { State.reset with pc := 0x208, sp := 1, stack := State.reset.stack.set 0 0x202 }
      (fun t => (t.pc, t.sp.val, t.stack[0])) = some (0x202, 0, 0x202) := by decide +kernel

theorem test_ret_underflow :
    ran 0x00EE State.reset (fun t => (t.haltCause, t.pc, t.sp.val)) = some (.stackUnderflow, 0x202, 0) := by
  decide +kernel

/-! ### Skips (section 2.3) -/

theorem test_seImm :
    ran 0x332A (regs [(0x3, 0x2A)]) (fun t => t.pc) = some 0x204 ∧
    ran 0x332A (regs [(0x3, 0x2B)]) (fun t => t.pc) = some 0x202 := by decide +kernel

theorem test_sneImm :
    ran 0x4001 State.reset (fun t => t.pc) = some 0x204 ∧ ran 0x4000 State.reset (fun t => t.pc) = some 0x202 := by
  decide +kernel

theorem test_seReg :
    ran 0x5127 (regs [(0x1, 0x07), (0x2, 0x07)]) (fun t => t.pc) = some 0x204 ∧
    ran 0x5120 (regs [(0x1, 0x07), (0x2, 0x08)]) (fun t => t.pc) = some 0x202 := by decide +kernel

theorem test_sneReg :
    ran 0x9120 (regs [(0x1, 0x07), (0x2, 0x08)]) (fun t => t.pc) = some 0x204 ∧
    ran 0x9127 (regs [(0x1, 0x07), (0x2, 0x07)]) (fun t => t.pc) = some 0x202 := by decide +kernel

theorem test_skp :
    ran 0xE59E ((regs [(0x5, 0x0A)]).setKeys 0x0400) (fun t => t.pc) = some 0x204 ∧
    ran 0xE59E (regs [(0x5, 0x0A)]) (fun t => t.pc) = some 0x202 := by decide +kernel

theorem test_skp_range :
    ran 0xE59E (regs [(0x5, 0x10)]) (fun t => (t.haltCause, t.pc)) = some (.keyRange, 0x202) := by decide +kernel

theorem test_sknp :
    ran 0xE5A1 (regs [(0x5, 0x0A)]) (fun t => t.pc) = some 0x204 ∧
    ran 0xE5A1 ((regs [(0x5, 0x0A)]).setKeys 0x0400) (fun t => t.pc) = some 0x202 := by decide +kernel

theorem test_sknp_range :
    ran 0xE5A1 (regs [(0x5, 0xFF)]) (fun t => (t.haltCause, t.pc)) = some (.keyRange, 0x202) := by decide +kernel

/-! ### ALU (section 2.4) -/

/-- E1. -/
theorem test_ldImm : ran 0x6A42 State.reset (fun t => (t.getV 0xA, t.pc)) = some (0x42, 0x202) := by decide +kernel

/-- E2. -/
theorem test_addImm_wraps :
    ran 0x7002 (regs [(0x0, 0xFF), (0xF, 0x07)]) (fun t => (t.getV 0x0, t.getV 0xF)) = some (0x01, 0x07) := by
  decide +kernel

theorem test_ldReg : ran 0x8010 (regs [(0x1, 0x33)]) (fun t => t.getV 0x0) = some 0x33 := by decide +kernel

theorem test_or :
    ran 0x8011 (regs [(0x0, 0x0F), (0x1, 0xF0), (0xF, 0x55)]) (fun t => (t.getV 0x0, t.getV 0xF)) =
      some (0xFF, 0x55) := by decide +kernel

theorem test_and :
    ran 0x8012 (regs [(0x0, 0x3C), (0x1, 0x0F), (0xF, 0x55)]) (fun t => (t.getV 0x0, t.getV 0xF)) =
      some (0x0C, 0x55) := by decide +kernel

theorem test_xor :
    ran 0x8013 (regs [(0x0, 0xFF), (0x1, 0x0F), (0xF, 0x55)]) (fun t => (t.getV 0x0, t.getV 0xF)) =
      some (0xF0, 0x55) := by decide +kernel

/-- E3. -/
theorem test_addReg :
    ran 0x8014 (regs [(0x0, 0xC8), (0x1, 0x64)]) (fun t => (t.getV 0x0, t.getV 0xF)) = some (0x2C, 0x01) ∧
    ran 0x8014 (regs [(0x0, 0x7F), (0x1, 0x80)]) (fun t => (t.getV 0x0, t.getV 0xF)) = some (0xFF, 0x00) := by
  decide +kernel

/-- VF as destination: the value is written last. VF as source: it is read before it is written. -/
theorem test_addReg_vF :
    ran 0x8F14 (regs [(0xF, 0x05), (0x1, 0xFE)]) (fun t => t.getV 0xF) = some 0x03 ∧
    ran 0x80F4 (regs [(0x0, 0x10), (0xF, 0x20)]) (fun t => (t.getV 0x0, t.getV 0xF)) = some (0x30, 0x00) := by
  decide +kernel

/-- E4. -/
theorem test_sub :
    ran 0x8015 (regs [(0x0, 0x05), (0x1, 0x05)]) (fun t => (t.getV 0x0, t.getV 0xF)) = some (0x00, 0x01) ∧
    ran 0x8015 (regs [(0x0, 0x0A), (0x1, 0x0B)]) (fun t => (t.getV 0x0, t.getV 0xF)) = some (0xFF, 0x00) := by
  decide +kernel

theorem test_sub_vF :
    ran 0x8F15 (regs [(0xF, 0x05), (0x1, 0x03)]) (fun t => t.getV 0xF) = some 0xFE ∧
    ran 0x80F5 (regs [(0x0, 0x05), (0xF, 0x03)]) (fun t => (t.getV 0x0, t.getV 0xF)) = some (0x04, 0x01) := by
  decide +kernel

theorem test_subn :
    ran 0x8017 (regs [(0x0, 0x0A), (0x1, 0x0B)]) (fun t => (t.getV 0x0, t.getV 0xF)) = some (0x01, 0x01) ∧
    ran 0x8017 (regs [(0x0, 0x0B), (0x1, 0x0A)]) (fun t => (t.getV 0x0, t.getV 0xF)) = some (0xFF, 0x00) := by
  decide +kernel

theorem test_subn_vF :
    ran 0x8F17 (regs [(0xF, 0x01), (0x1, 0x03)]) (fun t => t.getV 0xF) = some 0x02 ∧
    ran 0x80F7 (regs [(0x0, 0x05), (0xF, 0x03)]) (fun t => (t.getV 0x0, t.getV 0xF)) = some (0xFB, 0x00) := by
  decide +kernel

theorem test_shr :
    ran 0x8206 (regs [(0x2, 0xFF)]) (fun t => (t.getV 0x2, t.getV 0xF)) = some (0x7F, 0x01) ∧
    ran 0x82F6 (regs [(0x2, 0x04), (0xF, 0x09)]) (fun t => (t.getV 0x2, t.getV 0xF)) = some (0x02, 0x00) := by
  decide +kernel

theorem test_shr_vF : ran 0x8F06 (regs [(0xF, 0x03)]) (fun t => t.getV 0xF) = some 0x00 := by decide +kernel

theorem test_shl :
    ran 0x820E (regs [(0x2, 0x81)]) (fun t => (t.getV 0x2, t.getV 0xF)) = some (0x02, 0x01) ∧
    ran 0x820E (regs [(0x2, 0x7F)]) (fun t => (t.getV 0x2, t.getV 0xF)) = some (0xFE, 0x00) := by decide +kernel

theorem test_shl_vF : ran 0x8F0E (regs [(0xF, 0x80)]) (fun t => t.getV 0xF) = some 0x02 := by decide +kernel

/-- rnd = B7, word C30F: V3 = 07. The byte itself is free, so the test is of what is done with it. -/
theorem test_rnd_mask :
    (State.reset.randomInto 0x3 0x0F 0xB7).getV 0x3 = 0x07 ∧ (State.reset.randomInto 0x3 0x00 0xB7).getV 0x3 = 0x00 ∧
    (State.reset.randomInto 0xF 0xF0 0x5A).getV 0xF = 0x50 := by decide +kernel

/-- R34, R176: the byte is the one of this draw, masked. -/
theorem test_rnd : ran 0xC30F State.reset (fun t => t.getV 0x3) = some (Config.rnd 0 &&& 0x0F) := rfl

/-! ### Index register and data memory (section 2.5) -/

theorem test_ldI : ran 0xA20A (State.reset.setIdx 0x555) (fun t => t.idx) = some 0x20A := by decide +kernel

theorem test_addIVx :
    ran 0xF41E ((regs [(0x4, 0x01)]).setIdx 0xFFF) (fun t => (t.idx, t.getV 0xF)) = some (0x1000, 0x00) ∧
    ran 0xF41E ((regs [(0x4, 0xFF)]).setIdx 0xFFFF) (fun t => t.idx) = some 0x00FE := by decide +kernel

theorem test_ldFVx :
    ran 0xF029 (regs [(0x0, 0x0F)]) (fun t => t.idx) = some 0x004B ∧
    ran 0xF029 (regs [(0x0, 0xFF)]) (fun t => t.idx) = some 0x04FB := by decide +kernel

/-- The last address that three bytes fit at. -/
theorem test_ldBVx :
    ran 0xF333 ((regs [(0x3, 0x9C)]).setIdx 0xFFD) (fun t => (t.mem.readBytes 0xFFD 3, t.idx)) =
      some ([0x01, 0x05, 0x06], 0xFFD) := by decide +kernel

theorem test_ldBVx_range :
    ran 0xF333 ((poke (regs [(0x3, 0x9C)]) 0xFFE [0xBB, 0xCC]).setIdx 0xFFE)
      (fun t => (t.haltCause, t.mem.readBytes 0xFFE 2, t.pc)) = some (.memRange, [0xBB, 0xCC], 0x202) := by
  decide +kernel

theorem test_ldMemVx :
    ran 0xF255 ((regs [(0x0, 0x11), (0x1, 0x22), (0x2, 0x33), (0x3, 0x44)]).setIdx 0x300)
      (fun t => (t.mem.readBytes 0x300 4, t.idx)) = some ([0x11, 0x22, 0x33, 0x00], 0x303) := by decide +kernel

/-- I = 0FF1, FF55: MEM_RANGE, nothing stored, I as it was. -/
theorem test_ldMemVx_range :
    ran 0xFF55 ((regs [(0x0, 0x11)]).setIdx 0xFF1) (fun t => (t.haltCause, t.mem.read 0xFF1, t.idx)) =
      some (.memRange, 0x00, 0xFF1) := by decide +kernel

theorem test_ldVxMem :
    ran 0xF265 ((poke State.reset 0x300 [0x01, 0x05, 0x06, 0x09]).setIdx 0x300)
      (fun t => ([t.getV 0x0, t.getV 0x1, t.getV 0x2, t.getV 0x3], t.idx)) =
      some ([0x01, 0x05, 0x06, 0x00], 0x303) := by decide +kernel

theorem test_ldVxMem_top :
    ran 0xF065 ((poke State.reset 0xFFF [0x42]).setIdx 0xFFF) (fun t => (t.getV 0x0, t.idx)) =
      some (0x42, 0x1000) := by decide +kernel

/-! ### Display (section 2.6) -/

theorem test_cls :
    ran 0x01E0 ((regs [(0xF, 0x09)]).setFb (State.reset.fb.set 0 1)) (fun t => (t.pixel (fbCell 0 0), t.getV 0xF)) =
      some (0, 0x09) := by decide +kernel

/-- V0 = 46, V1 = 28, I = 0300, M[300] = 80: the start coordinates wrap, to cell (6, 8). -/
theorem test_drw_wraps :
    ran 0xD011 ((poke (regs [(0x0, 0x46), (0x1, 0x28)]) 0x300 [0x80]).setIdx 0x300)
      (fun t => (t.pixel (fbCell 6 8), t.pixel (fbCell 7 8), t.getV 0xF)) = some (1, 0, 0x00) := by decide +kernel

/-- FB(1,0) = 1, I = 0300, M[300] = C0: FB(0,0) = 1, FB(1,0) = 0, VF = 01. -/
theorem test_drw_collision :
    ran 0xD011 (((poke State.reset 0x300 [0xC0]).setFb (State.reset.fb.set 1 1)).setIdx 0x300)
      (fun t => (t.pixel (fbCell 0 0), t.pixel (fbCell 1 0), t.getV 0xF)) = some (1, 0, 0x01) := by decide +kernel

/-! ### Timers and keys (section 2.7) -/

theorem test_ldVxDt : ran 0xF307 (State.reset.setDt 0x3C) (fun t => t.getV 0x3) = some 0x3C := by decide +kernel

theorem test_ldDtVx : ran 0xF315 (regs [(0x3, 0x3C)]) (fun t => (t.dt, t.st)) = some (0x3C, 0x00) := by decide +kernel

theorem test_ldStVx :
    ran 0xF318 (regs [(0x3, 0x05)]) (fun t => (t.st, t.dt, t.soundActive)) = some (0x05, 0x00, true) := by decide +kernel

/-- No key down: PC = 300 again. -/
theorem test_ldVxK_waits :
    ran 0xF10A ((regs [(0x1, 0x55)]).setPc 0x300) (fun t => (t.pc, t.getV 0x1)) = some (0x300, 0x55) := by decide +kernel

/-- K[7] = K[9] = 1: V1 = 07. -/
theorem test_ldVxK_lowest :
    ran 0xF10A ((State.reset.setKeys 0x0280).setPc 0x300) (fun t => (t.pc, t.getV 0x1)) = some (0x302, 0x07) := by
  decide +kernel

/-! ### The host's operations -/

/-- E9, and DT = FF, ST = 02. -/
theorem test_tick :
    (((State.reset.setDt 0x01).tick).dt, ((State.reset.setDt 0x01).tick.tick).dt) = (0x00, 0x00) ∧
    (((State.reset.setDt 0xFF).setSt 0x02).tick.dt, ((State.reset.setDt 0xFF).setSt 0x02).tick.st) = (0xFE, 0x01) := by
  decide +kernel

/-- R318: bit 0xF of the argument is key 0xF. -/
theorem test_setKeys :
    (State.reset.setKeys 0x8001).keyDown 0xF = true ∧ (State.reset.setKeys 0x8001).keyDown 0x0 = true ∧
    (State.reset.setKeys 0x8001).keyDown 0x7 = false := by decide +kernel

/-- R344: the first byte of the image stands at 0x200. -/
theorem test_load : (State.reset.load [0x60, 0x05]).mem.readBytes 0x1FF 4 = [0x00, 0x60, 0x05, 0x00] := by
  decide +kernel

/-! ### Witnesses: for each obligation with hypotheses, a case that meets them together

A clause `Selects mask pattern mk` has one hypothesis, that a word matches its row; the first theorem meets it for all
33 rows. A hypothesis `exec i s = .next t` is met by a state `t` that the theorem leaves to Lean to compute. -/

theorem test_witness_Selects : ∀ r ∈ opcodeMap, r.pattern &&& r.mask = r.pattern := by decide

theorem test_witness_DecodeOfEncodeIsTheInstruction : (Instr.shl 0x2 0xF).wellFormed = true := by decide

theorem test_witness_EncodeOfDecodeIsTheWord : decode 0x82FE = .ok (.shl 0x2 0xF) := by decide

theorem test_witness_DecodeFollowsTheOpcodeMap :
    (⟨18, 0x800E, 0xF00F⟩ : OpcodeRow) ∈ opcodeMap ∧ (0x82FE : Word) &&& 0xF00F = 0x800E ∧
    (0x82FF : Word) &&& 0xF00F ≠ 0x800E := by decide

theorem test_witness_UnmatchedWordsAreUnknownOpcodes :
    (∀ r ∈ opcodeMap, (0x82FF : Word) &&& r.mask ≠ r.pattern) ∧ fieldClass 0xB000 = 0xB ∧ fieldClass 0xBFFF = 0xB ∧
    (fieldClass 0x00EF = 0x0 ∧ fieldNN 0x00EF ≠ 0xE0 ∧ fieldNN 0x00EF ≠ 0xEE) := by decide

theorem test_witness_DecoderTakesExactlyTwoBytes :
    decode (wordOfBytes 0xFF 0x65) = .ok (.ldVxMem 0xF) ∧
    decodeBytes [0x12, 0x04] = .ok (.jp 0x204, []) ∧ decode (encode (.jp 0xFFF)) = .ok (.jp 0xFFF) := by decide

/-- The last address an instruction can stand at. -/
theorem test_witness_StepRunsTheDecodedInstruction :
    let s := (State.reset.setPc 0xFFE).withFetchWord 16 0x6011
    s.halted = false ∧ s.pc.toNat + 1 < 4096 ∧ decode s.fetchWord = .ok (.ldImm 0x0 0x11) := by decide +kernel

theorem test_witness_FetchOutOfRangeHalts :
    (State.reset.setPc 0xFFF).halted = false ∧ 4096 ≤ (State.reset.setPc 0xFFF).pc.toNat + 1 := by decide +kernel

theorem decode_ne_ok_of_error {op : Word} (h : decode op = .error (.unknownOpcode op)) : ∀ i, decode op ≠ .ok i := by
  intro i; rw [h]; exact nofun

theorem test_witness_UnknownOpcodeIsReportedAndPassed :
    State.reset.halted = false ∧ State.reset.pc.toNat + 1 < 4096 ∧ ∀ i, decode State.reset.fetchWord ≠ .ok i :=
  ⟨by decide +kernel, by decide +kernel, decode_ne_ok_of_error (by decide +kernel)⟩

theorem test_witness_HaltedStepDoesNothing : (State.reset.setHalt .memRange).halted = true := by decide +kernel

/-- A step that leaves DT and ST alone, one that writes DT, and one that writes ST. -/
theorem test_witness_StepLeavesTimersAndKeys :
    (∃ t, step (State.reset.withFetchWord 16 0x6A42) = .next t ∧ t.dt = 0 ∧ t.st = 0) ∧
    (∃ t, step ((regs [(0x3, 0x3C)]).withFetchWord 16 0xF315) = .next t ∧ t.dt ≠ 0) ∧
    (∃ t, step ((regs [(0x3, 0x3C)]).withFetchWord 16 0xF318) = .next t ∧ t.st ≠ 0) :=
  ⟨⟨_, rfl, by decide +kernel⟩, ⟨_, rfl, by decide +kernel⟩, ⟨_, rfl, by decide +kernel⟩⟩

/-- FETCH_RANGE, where PC stays, and another halting condition, where it has advanced. -/
theorem test_witness_HaltingIsPrecise :
    ((State.reset.setPc 0xFFF).halted = false ∧ ∃ t, step (State.reset.setPc 0xFFF) = .next t ∧ t.halted = true ∧ t.pc = 0xFFF) ∧
    ((State.reset.withFetchWord 16 0x00EE).halted = false ∧
      ∃ t, step (State.reset.withFetchWord 16 0x00EE) = .next t ∧ t.halted = true ∧ t.pc = 0x202) :=
  ⟨⟨by decide +kernel, _, rfl, by decide +kernel⟩, ⟨by decide +kernel, _, rfl, by decide +kernel⟩⟩

/-- Each of the six conditions is raised by some step. -/
theorem test_witness_ReportNamesTheConditionRaised :
    ran 0xB000 State.reset (fun t => t.report) = some (some ⟨.unknownOpcode, 0x200, some 0xB000⟩) ∧
    ran 0x2300 { State.reset with sp := 16 } (fun t => t.report) = some (some ⟨.stackOverflow, 0x200, some 0x2300⟩) ∧
    ran 0x0FEE State.reset (fun t => t.report) = some (some ⟨.stackUnderflow, 0x200, some 0x0FEE⟩) ∧
    ran 0xD01F (State.reset.setIdx 0xFF2) (fun t => t.report) = some (some ⟨.memRange, 0x200, some 0xD01F⟩) ∧
    ran 0xF065 (State.reset.setIdx 0x1000) (fun t => t.report) = some (some ⟨.memRange, 0x200, some 0xF065⟩) ∧
    nextOf (step (State.reset.setPc 0xFFF)) (fun t => t.report) = some (some ⟨.fetchRange, 0xFFF, none⟩) ∧
    ran 0xE5A1 (regs [(0x5, 0x10)]) (fun t => t.report) = some (some ⟨.keyRange, 0x200, some 0xE5A1⟩) := by
  decide +kernel

/-- VF written as a flag, and VF written as the named destination. -/
theorem test_witness_OnlyTheFlagGroupWritesVFUnnamed :
    (∃ t, exec (.addReg 0x0 0x1) (regs [(0x0, 0xC8), (0x1, 0x64)]) = .next t ∧ t.getV 0xF ≠ 0) ∧
    (∃ t, exec (.ldImm 0xF 0x01) State.reset = .next t ∧ t.getV 0xF ≠ 0) ∧
    (∃ t, exec (.ldVxMem 0xF) (poke State.reset 0x00F [0x01]) = .next t ∧ t.getV 0xF ≠ 0) :=
  ⟨⟨_, rfl, by decide +kernel⟩, ⟨_, rfl, by decide +kernel⟩, ⟨_, rfl, by decide +kernel⟩⟩

/-- A call with one entry free, a return from the last entry, and an instruction that leaves the stack alone. -/
theorem test_witness_OnlyCallAndReturnMoveTheStack :
    (∃ t, exec (.call 0x300) { State.reset with sp := 15 } = .next t ∧ t.sp.val = 16) ∧
    (∃ t, exec (.ret 0x0) { State.reset with sp := 16 } = .next t ∧ t.sp.val = 15) ∧
    (∃ t, exec (.jp 0x300) State.reset = .next t ∧ t.sp.val = 0) :=
  ⟨⟨_, rfl, by decide +kernel⟩, ⟨_, rfl, by decide +kernel⟩, ⟨_, rfl, by decide +kernel⟩⟩

theorem test_witness_OnlyFiveInstructionsWriteI :
    (∃ t, exec (.ldI 0x300) State.reset = .next t ∧ t.idx ≠ State.reset.idx) ∧
    (∃ t, exec (.addIVx 0x0) (regs [(0x0, 0x01)]) = .next t ∧ t.idx ≠ State.reset.idx) ∧
    (∃ t, exec (.ldFVx 0x0) (regs [(0x0, 0x01)]) = .next t ∧ t.idx ≠ State.reset.idx) ∧
    (∃ t, exec (.ldMemVx 0x0) State.reset = .next t ∧ t.idx ≠ State.reset.idx) ∧
    (∃ t, exec (.ldVxMem 0xF) State.reset = .next t ∧ t.idx ≠ State.reset.idx) :=
  ⟨⟨_, rfl, by decide +kernel⟩, ⟨_, rfl, by decide +kernel⟩, ⟨_, rfl, by decide +kernel⟩, ⟨_, rfl, by decide +kernel⟩,
    ⟨_, rfl, by decide +kernel⟩⟩

/-- Both instructions that write the framebuffer do change it somewhere. -/
theorem test_witness_OnlyClearAndDrawWriteTheFramebuffer :
    (∃ t, exec (.cls 0x0) (State.reset.setFb (State.reset.fb.set 0 1)) = .next t ∧
      t.pixel 0 ≠ (State.reset.setFb (State.reset.fb.set 0 1)).pixel 0) ∧
    (∃ t, exec (.drw 0x0 0x0 0x1) State.reset = .next t ∧ t.pixel 0 ≠ State.reset.pixel 0) :=
  ⟨⟨_, rfl, by decide +kernel⟩, ⟨_, rfl, by decide +kernel⟩⟩

/-- Each store changes a byte; Fx55 at the last address. -/
theorem test_witness_OnlyTheTwoStoresWriteMemory :
    (Memory.wf State.reset.mem ∧ ∃ t, exec (.ldBVx 0x3) ((regs [(0x3, 0x9C)]).setIdx 0xFFD) = .next t ∧
      t.mem.read 0xFFF ≠ State.reset.mem.read 0xFFF) ∧
    (Memory.wf State.reset.mem ∧ ∃ t, exec (.ldMemVx 0x0) ((regs [(0x0, 0x11)]).setIdx 0xFFF) = .next t ∧
      t.mem.read 0xFFF ≠ State.reset.mem.read 0xFFF) :=
  ⟨⟨by decide, _, rfl, by decide +kernel⟩, ⟨by decide, _, rfl, by decide +kernel⟩⟩

theorem test_witness_CallPushesTheReturnAddress :
    State.reset.sp.val < 16 ∧ State.sp { State.reset with sp := 15 } < 16 := by decide +kernel

theorem test_witness_ReturnPopsTheReturnAddress :
    (State.sp { State.reset with sp := 1 }).val = (0 : Fin 16).val + 1 ∧
    (State.sp { State.reset with sp := 16 }).val = (15 : Fin 16).val + 1 := by decide +kernel

/-- The state a call leaves meets the inner hypotheses itself. -/
theorem test_witness_ReturnUndoesCall :
    State.reset.sp.val = (0 : Fin 16).val ∧ ∃ t u : State, exec (.call 0x300) State.reset = .next t ∧
      u.sp = t.sp ∧ u.stack[(0 : Fin 16).val] = t.stack[(0 : Fin 16).val] :=
  ⟨by decide +kernel, _, _, rfl, rfl, rfl⟩

/-- Each clause at the lowest value that meets it. -/
theorem test_witness_InstructionsHaltOnTheirConditions :
    (State.sp { State.reset with sp := 16 }).val = 16 ∧ State.reset.sp.val = 0 ∧
    ((regs [(0x5, 0x10)]).getV 0x5).toNat > 0xF ∧ (State.reset.setIdx 0xFFE).idx.toNat + 2 ≥ 4096 ∧
    (State.reset.setIdx 0x1000).idx.toNat + (0x0 : Nibble).toNat ≥ 4096 ∧
    (State.reset.setIdx 0xFF1).idx.toNat + (0xF : Nibble).toNat ≥ 4096 ∧
    ((0xF : Nibble) ≠ 0 ∧ (State.reset.setIdx 0xFF2).idx.toNat + (0xF : Nibble).toNat - 1 ≥ 4096) ∧
    ((0x1 : Nibble) ≠ 0 ∧ (State.reset.setIdx 0x1000).idx.toNat + (0x1 : Nibble).toNat - 1 ≥ 4096) := by
  decide +kernel

theorem test_witness_KeySkipsSkip :
    ((regs [(0x5, 0x0F)]).getV 0x5).toNat = (15 : Fin 16).val ∧ (State.reset.getV 0x5).toNat = (0 : Fin 16).val := by
  decide +kernel

/-- The boundary values of x; and, for the two sides of the carry, sums of 256 and of 255. -/
theorem test_witness_AddRegisterCarriesIntoVF :
    (0x0 : Nibble) ≠ 0xF ∧ (0xE : Nibble) ≠ 0xF ∧
    (∃ t, exec (.addReg 0x0 0x1) (regs [(0x0, 0xFF), (0x1, 0x01)]) = .next t ∧ t.getV 0xF = 1) ∧
    (∃ t, exec (.addReg 0x0 0x1) (regs [(0x0, 0x7F), (0x1, 0x80)]) = .next t ∧ t.getV 0xF = 0) :=
  ⟨by decide, by decide, ⟨_, rfl, by decide +kernel⟩, ⟨_, rfl, by decide +kernel⟩⟩

/-- The state that each flag write leaves: equal operands for the two subtractions. -/
theorem test_witness_SubtractionsFlagNoBorrow :
    ∃ f g : State, f = (regs [(0x0, 0x05), (0x1, 0x05)]).setV 0xF
        (if ((regs [(0x0, 0x05), (0x1, 0x05)]).getV 0x0).toNat ≥ ((regs [(0x0, 0x05), (0x1, 0x05)]).getV 0x1).toNat
          then 1 else 0) ∧ f.getV 0xF = 1 ∧
      g = (regs [(0x0, 0x05), (0x1, 0x05)]).setV 0xF
        (if ((regs [(0x0, 0x05), (0x1, 0x05)]).getV 0x1).toNat ≥ ((regs [(0x0, 0x05), (0x1, 0x05)]).getV 0x0).toNat
          then 1 else 0) ∧ g.getV 0xF = 1 :=
  ⟨_, _, rfl, by decide +kernel, rfl, by decide +kernel⟩

theorem test_witness_ShiftsMoveVxByOneBit :
    ∃ f g : State, f = (regs [(0x2, 0xFF)]).setV 0xF (BitVec.ofNat 8 (((regs [(0x2, 0xFF)]).getV 0x2).toNat % 2)) ∧
      f.getV 0xF = 1 ∧
      g = (regs [(0x2, 0x80)]).setV 0xF (BitVec.ofNat 8 (((regs [(0x2, 0x80)]).getV 0x2).toNat / 128)) ∧ g.getV 0xF = 1 :=
  ⟨_, _, rfl, by decide +kernel, rfl, by decide +kernel⟩

theorem test_witness_FlagGroupAwayFromVF :
    (0x0 : Nibble) ≠ 0xF ∧ (0xE : Nibble) ≠ 0xF ∧ 0xFF = ((regs [(0x0, 0xFF)]).getV 0x0).toNat ∧
    0x00 = ((regs [(0x0, 0xFF)]).getV 0xE).toNat := by decide +kernel

theorem test_witness_FlagGroupOnVFFollowsTheTable :
    (0x0 : Nibble) ≠ 0xF ∧ (0x1 : Nibble) ≠ 0xF ∧ 0x05 = ((regs [(0x0, 0x05), (0xF, 0x03)]).getV 0x0).toNat ∧
    0x00 = ((regs [(0x0, 0x05), (0xF, 0x03)]).getV 0x1).toNat ∧
    0x03 = ((regs [(0x0, 0x05), (0xF, 0x03)]).getV 0xF).toNat := by decide +kernel

/-- The last address that three bytes fit at. -/
theorem test_witness_DecimalDigitsAreStored :
    Memory.wf (State.reset.setIdx 0xFFD).mem ∧ (State.reset.setIdx 0xFFD).idx.toNat + 2 < 4096 := by decide +kernel

/-- The last addresses that sixteen bytes and one byte fit at, for the store, the load, and both together. -/
theorem test_witness_BulkStoreWritesTheRun :
    (Memory.wf (State.reset.setIdx 0xFF0).mem ∧ (State.reset.setIdx 0xFF0).idx.toNat + (0xF : Nibble).toNat < 4096) ∧
    (Memory.wf (State.reset.setIdx 0xFFF).mem ∧ (State.reset.setIdx 0xFFF).idx.toNat + (0x0 : Nibble).toNat < 4096) := by
  decide +kernel

theorem test_witness_BulkLoadReadsTheRun :
    (State.reset.setIdx 0xFF0).idx.toNat + (0xF : Nibble).toNat < 4096 ∧
    (State.reset.setIdx 0xFFF).idx.toNat + (0x0 : Nibble).toNat < 4096 := by decide +kernel

theorem test_witness_BulkMovesAdvanceTheIndex :
    (State.reset.setIdx 0xFF0).idx.toNat + (0xF : Nibble).toNat < 4096 ∧
    (∃ t, exec (.ldMemVx 0xF) (State.reset.setIdx 0xFF0) = .next t ∧ t.idx = 0x1000) ∧
    (∃ t, exec (.ldVxMem 0xF) (State.reset.setIdx 0xFF0) = .next t ∧ t.idx = 0x1000) ∧
    (∃ t, exec (.ldBVx 0xF) (State.reset.setIdx 0xFFD) = .next t ∧ t.idx = 0xFFD) ∧
    (∃ t, exec (.drw 0x0 0x0 0x1) (State.reset.setIdx 0xFFF) = .next t ∧ t.idx = 0xFFF) :=
  ⟨by decide +kernel, ⟨_, rfl, by decide +kernel⟩, ⟨_, rfl, by decide +kernel⟩, ⟨_, rfl, by decide +kernel⟩,
    ⟨_, rfl, by decide +kernel⟩⟩

/-- The top row of the glyph "0" is F0: its bit 4 falls on the cell (3, 0) and its bit 3 on none, so that (4, 0) is not
covered. -/
theorem spriteCovers_glyph0 : State.reset.spriteCovers 0 0 1 3 ∧ ¬ State.reset.spriteCovers 0 0 1 4 := by
  refine ⟨⟨0, 3, by decide, by decide, by decide +kernel, by decide⟩, ?_⟩
  rintro ⟨r, c, hr, hc, hb, hp⟩
  obtain rfl : r = 0 := by omega
  obtain rfl : c = 4 := by simp at hp; omega
  revert hb; decide +kernel

/-- In range: no row at an address that does not exist, and the last row at 0xFFF. Covered and uncovered cells, and a
covered cell that holds 1 or none that does. -/
theorem test_witness_DrawTogglesTheSpritesCells :
    (State.reset.setIdx 0xFFFF).spriteInRange 0 ∧ (State.reset.setIdx 0xFF1).spriteInRange 15 ∧
    State.reset.spriteInRange 1 ∧ State.reset.spriteCovers 0 0 1 3 ∧ ¬ State.reset.spriteCovers 0 0 1 4 ∧
    (∃ p, (State.reset.setFb (State.reset.fb.set 3 1)).spriteCovers 0 0 1 p ∧
      (State.reset.setFb (State.reset.fb.set 3 1)).pixel p = 1) ∧
    (¬ ∃ p, State.reset.spriteCovers 0 0 1 p ∧ State.reset.pixel p = 1) := by
  refine ⟨.inl rfl, .inr (by decide +kernel), .inr (by decide +kernel), spriteCovers_glyph0.1, spriteCovers_glyph0.2,
    ⟨3, spriteCovers_glyph0.1, by decide +kernel⟩, ?_⟩
  rintro ⟨p, -, h⟩
  simp [State.pixel, State.reset] at h

/-- One sprite on an empty screen: it covers some cells, and finds none of them set. -/
theorem test_witness_CollisionIsExactAndDrawingTwiceCancels :
    State.reset.spriteInRange 1 ∧ (∃ t, exec (.drw 0x0 0x1 0x1) State.reset = .next t ∧ t.getV 0xF = 0) ∧
    (∃ t, exec (.drw 0x0 0x1 0x1) (State.reset.setFb (State.reset.fb.set 3 1)) = .next t ∧ t.getV 0xF = 1) ∧
    (0x0 : Nibble) ≠ 0xF ∧ (0x1 : Nibble) ≠ 0xF ∧ (∃ p, State.reset.spriteCovers 0 0 1 p) ∧
    (∀ p, State.reset.spriteCovers 0 0 1 p → State.reset.pixel p = 0) :=
  ⟨.inr (by decide +kernel), ⟨_, rfl, by decide +kernel⟩, ⟨_, rfl, by decide +kernel⟩, by decide, by decide,
    ⟨3, spriteCovers_glyph0.1⟩, fun p _ => by simp [State.pixel, State.reset]⟩

theorem test_witness_SpriteCellsAreDistinct : (List.replicate 15 (0xFF : Byte)).length ≤ 15 := by decide

/-- No key down; the highest key alone; the lowest of all sixteen; and the whole step that waits. -/
theorem test_witness_KeyWaitRewindsOrTakesTheLowestKey :
    (∀ k : Fin 16, State.reset.keys[k.val] = false) ∧
    ((State.reset.setKeys 0x8000).keys[(15 : Fin 16).val] = true ∧
      ∀ j : Fin 16, j.val < (15 : Fin 16).val → (State.reset.setKeys 0x8000).keys[j.val] = false) ∧
    ((State.reset.setKeys 0xFFFF).keys[(0 : Fin 16).val] = true ∧
      ∀ j : Fin 16, j.val < (0 : Fin 16).val → (State.reset.setKeys 0xFFFF).keys[j.val] = false) ∧
    ((State.reset.withFetchWord 16 0xF10A).halted = false ∧
      (State.reset.withFetchWord 16 0xF10A).pc.toNat + 1 < 4096 ∧
      decode (State.reset.withFetchWord 16 0xF10A).fetchWord = .ok (.ldVxK 0x1) ∧
      ∀ k : Fin 16, (State.reset.withFetchWord 16 0xF10A).keys[k.val] = false) := by decide +kernel

/-- One instruction of each clause of the three frames answers a next state. -/
theorem test_witness_RegisterInstructionsFrame :
    (∃ t, exec (.addImm 0x0 0xFF) State.reset = .next t) ∧ (∃ t, exec (.subn 0xF 0x0) State.reset = .next t) ∧
    (∃ t, exec (.rnd 0xF 0x0F) State.reset = .next t) :=
  ⟨⟨_, rfl⟩, ⟨_, rfl⟩, ⟨_, rfl⟩⟩

theorem test_witness_ControlIndexAndTimerFrame :
    (∃ t, exec (.jp 0x300) State.reset = .next t) ∧ (∃ t, exec (.skp 0x0) (regs [(0x0, 0x10)]) = .next t) ∧
    (∃ t, exec (.call 0x300) { State.reset with sp := 16 } = .next t) ∧ (∃ t, exec (.ret 0x0) State.reset = .next t) ∧
    (∃ t, exec (.addIVx 0x0) State.reset = .next t) ∧ (∃ t, exec (.ldDtVx 0x0) State.reset = .next t) ∧
    (∃ t, exec (.ldStVx 0x0) State.reset = .next t) ∧ (∃ t, exec (.ldVxK 0x0) State.reset = .next t) :=
  ⟨⟨_, rfl⟩, ⟨_, rfl⟩, ⟨_, rfl⟩, ⟨_, rfl⟩, ⟨_, rfl⟩, ⟨_, rfl⟩, ⟨_, rfl⟩, ⟨_, rfl⟩⟩

theorem test_witness_MemoryAndDisplayFrame :
    Memory.wf State.reset.mem ∧ (∃ t, exec (.ldBVx 0x0) (State.reset.setIdx 0xFFE) = .next t) ∧
    (∃ t, exec (.ldMemVx 0x0) (State.reset.setIdx 0xFFF) = .next t) ∧ (∃ t, exec (.ldVxMem 0xF) State.reset = .next t) ∧
    (∃ t, exec (.drw 0x0 0x0 0x0) (State.reset.setIdx 0x1000) = .next t) ∧ (∃ t, exec (.cls 0x0) State.reset = .next t) :=
  ⟨by decide, ⟨_, rfl⟩, ⟨_, rfl⟩, ⟨_, rfl⟩, ⟨_, rfl⟩, ⟨_, rfl⟩⟩

/-- The last cell of the snapshot. -/
theorem test_witness_HostReadsChangeNothing : 63 < 64 ∧ 31 < 32 ∧ (fbCell 63 31).val = 2047 := by decide

/-- The longest image that fits, and the shortest that does not. -/
theorem test_witness_LoadPlacesTheImage :
    Memory.wf State.reset.mem ∧ (List.replicate 3584 (0x60 : Byte)).length ≤ 3584 ∧
    (List.replicate 3585 (0x60 : Byte)).length > 3584 := by
  refine ⟨by decide, ?_, ?_⟩ <;> rw [List.length_replicate]
  decide

/-- A state with an instruction in memory (a jump), which no reset leaves. -/
def jumpState : State := (State.reset.setMem [(0x200, 0x12)]).setHalt .keyRange

theorem jumpState_inv : jumpState.Inv :=
  ⟨by decide +kernel, fun p => .inl (by simp [jumpState, State.pixel, State.setMem, State.setHalt, State.reset]),
    fun h => absurd h (by decide +kernel), fun _ => rfl⟩

theorem test_witness_StepKeepsTheInvariant : jumpState.Inv ∧ ∃ t, step jumpState = .next t :=
  ⟨jumpState_inv, _, rfl⟩

theorem test_witness_HostRunsKeepTheInvariant :
    jumpState.Inv ∧ ∃ t rs, hostRun [.tick, .readStatus, .setKeys 0x0001] jumpState = .next (t, rs) :=
  ⟨jumpState_inv, _, _, rfl⟩

/-- PC at the bound, a saved return address at its own. -/
theorem test_witness_StepKeepsThePcBounded :
    State.pcBounded { State.reset with pc := 0x1002, stack := State.reset.stack.set 0 0x1000 } ∧
    ∃ t, step { State.reset with pc := 0x1002, stack := State.reset.stack.set 0 0x1000 } = .next t :=
  ⟨⟨by decide +kernel, by decide +kernel⟩, _, rfl⟩

/-- A halted state, and a jump to itself. -/
theorem test_witness_EndedRunsStayAsTheyAre :
    (State.reset.setHalt .stackUnderflow).ended ∧ (State.reset.withFetchWord 16 0x1200).ended :=
  ⟨.inl rfl, .inr ⟨by decide +kernel, by decide +kernel, 0x200, by decide +kernel, by decide +kernel⟩⟩

end Sys2Proof.Tests
end

section
/-! The register file (10_state.md R20): what a write does to each of the sixteen registers, and to the rest of the
state. -/

namespace Sys2Proof.Machine

/-- Settles O16: the read after the write is the register-file law `State.getV_setV`, where the split on `x = y` is made;
the rest of the state is `State.setV_frame`. -/
theorem registerWritesReadBack : Obligations.RegisterWritesReadBack :=
  fun s x y b => ⟨s.getV_setV x y b, s.setV_frame x b⟩

end Sys2Proof.Machine
end

section
/-! Memory (20_memory.md R60): the word the fetch reads is made of the two bytes at PC. -/

namespace Sys2Proof.Machine

/-- Settles O8: the fetched word is `wordOfBytes` of the bytes at PC and PC + 1 by definition, and each half of such a
word is the byte it was made of. -/
theorem fetchIsBigEndian : Obligations.FetchIsBigEndian :=
  fun s => ⟨hiByte_wordOfBytes (s.mem.read s.pc.toNat) _, loByte_wordOfBytes _ (s.mem.read (s.pc.toNat + 1))⟩

end Sys2Proof.Machine
end

section
/-! The opcode map (30_encoding.md R88, R90): every decoded word matches the row that bears its instruction's number, a
word that does not decode matches none, and no word matches two rows. -/

namespace Sys2Proof

/-! ### The fields that a mask keeps -/

theorem fieldClass_and_F000 (op : Word) : fieldClass (op &&& 0xF000) = fieldClass op := by
  rw [and_F000, fieldClass_packXYN]

theorem fieldClass_and_F00F (op : Word) : fieldClass (op &&& 0xF00F) = fieldClass op := by
  rw [and_F00F, fieldClass_packXYN]

theorem fieldN_and_F00F (op : Word) : fieldN (op &&& 0xF00F) = fieldN op := by
  rw [and_F00F, fieldN_packXYN]

theorem fieldClass_and_F0FF (op : Word) : fieldClass (op &&& 0xF0FF) = fieldClass op := by
  rw [and_F0FF, fieldClass_packXYN]

theorem fieldNN_and_F0FF (op : Word) : fieldNN (op &&& 0xF0FF) = fieldNN op := by
  rw [(fieldNN_eq_iff op _ _).mpr ⟨rfl, rfl⟩, fieldNN_eq_iff, and_F0FF, fieldY_packXYN, fieldN_packXYN]
  exact ⟨rfl, rfl⟩

/-! ### What the rows ask for (R83, R88) -/

/-- The classes that are one instruction each. -/
def plainClasses : List Nibble := [0x1, 0x2, 0x3, 0x4, 0x5, 0x6, 0x7, 0x9, 0xA, 0xC, 0xD]

/-- The values of `n` in class 0x8. -/
def aluSecondaries : List Nibble := [0x0, 0x1, 0x2, 0x3, 0x4, 0x5, 0x6, 0x7, 0xE]

/-- The class and `nn` of the instructions of the classes 0x0, 0xE and 0xF. -/
def byteSecondaries : List (Nibble × Byte) :=
  [(0x0, 0xE0), (0x0, 0xEE), (0xE, 0x9E), (0xE, 0xA1), (0xF, 0x07), (0xF, 0x0A), (0xF, 0x15), (0xF, 0x18),
   (0xF, 0x1E), (0xF, 0x29), (0xF, 0x33), (0xF, 0x55), (0xF, 0x65)]

/-- A row looks at the class alone, at the class 0x8 and `n`, or at the class and `nn`. -/
theorem opcodeRow_cases : ∀ r ∈ opcodeMap,
    (r.mask = 0xF000 ∧ fieldClass r.pattern ∈ plainClasses) ∨
    (r.mask = 0xF00F ∧ fieldClass r.pattern = 0x8 ∧ fieldN r.pattern ∈ aluSecondaries) ∨
    (r.mask = 0xF0FF ∧ (fieldClass r.pattern, fieldNN r.pattern) ∈ byteSecondaries) := by decide

theorem matches_no_row {op : Word} (hcls : fieldClass op ∉ plainClasses)
    (halu : fieldClass op = 0x8 → fieldN op ∉ aluSecondaries)
    (hbyte : (fieldClass op, fieldNN op) ∉ byteSecondaries) : ∀ r ∈ opcodeMap, op &&& r.mask ≠ r.pattern := by
  intro r hr h
  rcases opcodeRow_cases r hr with ⟨hm, hc⟩ | ⟨hm, hc, hn⟩ | ⟨hm, hcnn⟩
  · rw [← h, hm, fieldClass_and_F000] at hc
    exact hcls hc
  · rw [← h, hm, fieldClass_and_F00F] at hc
    rw [← h, hm, fieldN_and_F00F] at hn
    exact halu hc hn
  · rw [← h, hm, fieldClass_and_F0FF, fieldNN_and_F0FF] at hcnn
    exact hbyte hcnn

/-! ### What a decoder may answer -/

/-- An answer to the word `op` that agrees with the opcode map: an instruction whose word is `op`, or that `op` is
unknown when no row matches it (R88, R90). -/
def AgreesWithMap (op : Word) : Except DecodeError Instr → Prop
  | .ok i => encode i = op
  | .error e => e = .unknownOpcode op ∧ ∀ r ∈ opcodeMap, op &&& r.mask ≠ r.pattern

theorem AgreesWithMap.ite {op : Word} {c : Prop} [Decidable c] {a b : Except DecodeError Instr}
    (ha : c → AgreesWithMap op a) (hb : ¬ c → AgreesWithMap op b) : AgreesWithMap op (if c then a else b) :=
  iteInduction (motive := AgreesWithMap op) ha hb

theorem agreesWithMap_unknown {op : Word} (hcls : fieldClass op ∉ plainClasses)
    (halu : fieldClass op = 0x8 → fieldN op ∉ aluSecondaries)
    (hbyte : (fieldClass op, fieldNN op) ∉ byteSecondaries) : AgreesWithMap op (.error (.unknownOpcode op)) :=
  ⟨rfl, matches_no_row hcls halu hbyte⟩

/-! ### The decoder agrees with the opcode map, class by class -/

section
variable {op : Word}

theorem packXYN_of_fields {c n : Nibble} (hc : fieldClass op = c) (hn : fieldN op = n) :
    packXYN c (fieldX op) (fieldY op) n = op := by
  rw [← hc, ← hn, packXYN_fields]

theorem packXNN_of_fields {c : Nibble} {nn : Byte} (hc : fieldClass op = c) (hnn : fieldNN op = nn) :
    packXNN c (fieldX op) nn = op := by
  rw [← hc, ← hnn, packXNN_fields]

theorem packNNN_of_fields {c : Nibble} (hc : fieldClass op = c) : packNNN c (fieldNNN op) = op := by
  rw [← hc, packNNN_fields]

theorem decodeClass0_agrees (hc : fieldClass op = 0x0) : AgreesWithMap op (decodeClass0 op) := by
  have hok {nn : Byte} := packXNN_of_fields (nn := nn) hc
  refine .ite hok fun h0 => .ite hok fun h1 => ?_
  exact agreesWithMap_unknown (by simp_all [plainClasses]) (by simp_all [aluSecondaries]) (by simp_all [byteSecondaries])

theorem decodeClass8_agrees (hc : fieldClass op = 0x8) : AgreesWithMap op (decodeClass8 op) := by
  have hok {n : Nibble} := packXYN_of_fields (n := n) hc
  refine .ite hok fun h0 => .ite hok fun h1 => .ite hok fun h2 => .ite hok fun h3 => .ite hok fun h4 =>
    .ite hok fun h5 => .ite hok fun h6 => .ite hok fun h7 => .ite hok fun h8 => ?_
  exact agreesWithMap_unknown (by simp_all [plainClasses]) (by simp_all [aluSecondaries]) (by simp_all [byteSecondaries])

theorem decodeClassE_agrees (hc : fieldClass op = 0xE) : AgreesWithMap op (decodeClassE op) := by
  have hok {nn : Byte} := packXNN_of_fields (nn := nn) hc
  refine .ite hok fun h0 => .ite hok fun h1 => ?_
  exact agreesWithMap_unknown (by simp_all [plainClasses]) (by simp_all [aluSecondaries]) (by simp_all [byteSecondaries])

theorem decodeClassF_agrees (hc : fieldClass op = 0xF) : AgreesWithMap op (decodeClassF op) := by
  have hok {nn : Byte} := packXNN_of_fields (nn := nn) hc
  refine .ite hok fun h0 => .ite hok fun h1 => .ite hok fun h2 => .ite hok fun h3 => .ite hok fun h4 =>
    .ite hok fun h5 => .ite hok fun h6 => .ite hok fun h7 => .ite hok fun h8 => ?_
  exact agreesWithMap_unknown (by simp_all [plainClasses]) (by simp_all [aluSecondaries]) (by simp_all [byteSecondaries])

theorem decode_agrees (op : Word) : AgreesWithMap op (decode op) := by
  have hXYN {c : Nibble} (h : fieldClass op = c) := packXYN_of_fields h rfl
  have hXNN {c : Nibble} (h : fieldClass op = c) := packXNN_of_fields h rfl
  refine .ite decodeClass0_agrees fun h0 => .ite packNNN_of_fields fun h1 => .ite packNNN_of_fields fun h2 =>
    .ite hXNN fun h3 => .ite hXNN fun h4 => .ite hXYN fun h5 => .ite hXNN fun h6 => .ite hXNN fun h7 =>
    .ite decodeClass8_agrees fun h8 => .ite hXYN fun h9 => .ite packNNN_of_fields fun hA => .ite hXNN fun hC =>
    .ite hXYN fun hD => .ite decodeClassE_agrees fun hE => .ite decodeClassF_agrees fun hF => ?_
  exact agreesWithMap_unknown (by simp_all [plainClasses]) (by simp_all [aluSecondaries]) (by simp_all [byteSecondaries])

end

theorem encode_of_decode {op : Word} {i : Instr} (h : decode op = .ok i) : encode i = op := by
  have hop := decode_agrees op
  rwa [h] at hop

/-- The one way a word fails to decode is as itself, unknown, and then no row matches it. -/
theorem unknown_of_decode_eq_error {op : Word} {e : DecodeError} (h : decode op = .error e) :
    e = .unknownOpcode op ∧ ∀ r ∈ opcodeMap, op &&& r.mask ≠ r.pattern := by
  have hop := decode_agrees op
  rwa [h] at hop

/-! ### Every instruction has its row, and every row its own words -/

/-- The word of every instruction matches the row that bears the instruction's number. -/
theorem opcodeRow_of_encode : ∀ i : Instr, Laws.OpcodeRow.Statement i
  | .cls x => Laws.OpcodeRow.cls x
  | .ret x => Laws.OpcodeRow.ret x
  | .jp nnn => Laws.OpcodeRow.jp nnn
  | .call nnn => Laws.OpcodeRow.call nnn
  | .seImm x nn => Laws.OpcodeRow.seImm x nn
  | .sneImm x nn => Laws.OpcodeRow.sneImm x nn
  | .seReg x y n => Laws.OpcodeRow.seReg x y n
  | .ldImm x nn => Laws.OpcodeRow.ldImm x nn
  | .addImm x nn => Laws.OpcodeRow.addImm x nn
  | .ldReg x y => Laws.OpcodeRow.ldReg x y
  | .or x y => Laws.OpcodeRow.or x y
  | .and x y => Laws.OpcodeRow.and x y
  | .xor x y => Laws.OpcodeRow.xor x y
  | .addReg x y => Laws.OpcodeRow.addReg x y
  | .sub x y => Laws.OpcodeRow.sub x y
  | .shr x y => Laws.OpcodeRow.shr x y
  | .subn x y => Laws.OpcodeRow.subn x y
  | .shl x y => Laws.OpcodeRow.shl x y
  | .sneReg x y n => Laws.OpcodeRow.sneReg x y n
  | .ldI nnn => Laws.OpcodeRow.ldI nnn
  | .rnd x nn => Laws.OpcodeRow.rnd x nn
  | .drw x y n => Laws.OpcodeRow.drw x y n
  | .skp x => Laws.OpcodeRow.skp x
  | .sknp x => Laws.OpcodeRow.sknp x
  | .ldVxDt x => Laws.OpcodeRow.ldVxDt x
  | .ldDtVx x => Laws.OpcodeRow.ldDtVx x
  | .ldStVx x => Laws.OpcodeRow.ldStVx x
  | .ldVxK x => Laws.OpcodeRow.ldVxK x
  | .addIVx x => Laws.OpcodeRow.addIVx x
  | .ldFVx x => Laws.OpcodeRow.ldFVx x
  | .ldBVx x => Laws.OpcodeRow.ldBVx x
  | .ldMemVx x => Laws.OpcodeRow.ldMemVx x
  | .ldVxMem x => Laws.OpcodeRow.ldVxMem x

/-- A word that decodes matches the row of its instruction. -/
theorem opcodeRow_of_decode {op : Word} {i : Instr} (h : decode op = .ok i) :
    ∃ r ∈ opcodeMap, r.number = i.row ∧ op &&& r.mask = r.pattern :=
  encode_of_decode h ▸ opcodeRow_of_encode i

theorem opcodeRow_eq_of_number_eq : ∀ r ∈ opcodeMap, ∀ r' ∈ opcodeMap, r.number = r'.number → r = r' := by decide

/-- No word matches two rows: under both masks at once it would be both patterns, and those differ. -/
theorem opcodeRow_eq_of_matches {op : Word} {r r' : OpcodeRow} (hr : r ∈ opcodeMap) (hr' : r' ∈ opcodeMap)
    (h : op &&& r.mask = r.pattern) (h' : op &&& r'.mask = r'.pattern) : r = r' := by
  have distinct : ∀ r ∈ opcodeMap, ∀ r' ∈ opcodeMap, r.pattern &&& r'.mask = r'.pattern &&& r.mask → r = r' := by
    decide
  refine distinct r hr r' hr' ?_
  rw [← h, ← h', BitVec.and_assoc, BitVec.and_assoc, BitVec.and_comm r.mask]

/-! ### The opcode map's statements -/

/-- Settles O3: a decoded word matches the row of its instruction, a word matches at most one row, and rows are told
apart by their numbers. -/
theorem decodeFollowsTheOpcodeMap : Obligations.DecodeFollowsTheOpcodeMap := by
  intro op r hr
  constructor
  · intro hm
    cases h : decode op with
    | ok i =>
      obtain ⟨r', hr', hnum, hm'⟩ := opcodeRow_of_decode h
      exact ⟨i, rfl, opcodeRow_eq_of_matches hr' hr hm' hm ▸ hnum.symm⟩
    | error e => exact absurd hm ((unknown_of_decode_eq_error h).2 r hr)
  · rintro ⟨i, h, hi⟩
    obtain ⟨r', hr', hnum, hm'⟩ := opcodeRow_of_decode h
    exact opcodeRow_eq_of_number_eq r' hr' r hr (hnum.trans hi) ▸ hm'

/-- Settles O4: an unknown word matches no row, and a word that decodes matches one. The other two clauses are the last
branch of the dispatch on the class and of that of class 0x0 on `nn`. -/
theorem unmatchedWordsAreUnknownOpcodes : Obligations.UnmatchedWordsAreUnknownOpcodes := by
  intro op
  refine ⟨⟨fun h => (unknown_of_decode_eq_error h).2, fun hno => ?_⟩, ?_, ?_⟩
  · cases h : decode op with
    | ok i =>
      obtain ⟨r, hr, -, hm⟩ := opcodeRow_of_decode h
      exact absurd hm (hno r hr)
    | error e => rw [(unknown_of_decode_eq_error h).1]
  · intro hB
    simp [decode, hB]
  · intro h0 hE0 hEE
    rw [decode, if_pos h0, decodeClass0, if_neg hE0, if_neg hEE]

end Sys2Proof
end

section
/-! The length of an instruction (30_encoding.md R80): always two bytes, the one at the lower address high. -/

namespace Sys2Proof

/-- Decoding a list of bytes succeeds exactly when two bytes stand in front whose word decodes; what stands behind them
is left. -/
theorem decodeBytes_eq_ok_iff {bs rest : List Byte} {i : Instr} :
    decodeBytes bs = .ok (i, rest) ↔
      ∃ b0 b1, bs = b0 :: b1 :: rest ∧ decode (wordOfBytes b0 b1) = .ok i := by
  match bs with
  | [] => simp [decodeBytes]
  | [_] => simp [decodeBytes]
  | b0 :: b1 :: tl =>
    cases h : decode (wordOfBytes b0 b1) with
    | ok j => simp [decodeBytes, h, and_comm]
    | error e => simp [decodeBytes, h]

/-- Settles O6: the three clauses are the two directions of `decodeBytes_eq_ok_iff`, the last one at the two bytes of the
instruction's word. -/
theorem decoderTakesExactlyTwoBytes : Obligations.DecoderTakesExactlyTwoBytes :=
  ⟨fun b0 b1 _ _ h => decodeBytes_eq_ok_iff.mpr ⟨b0, b1, rfl, h⟩,
    fun _ _ _ => decodeBytes_eq_ok_iff.mp,
    fun i _ h => decodeBytes_eq_ok_iff.mpr ⟨_, _, rfl, (wordOfBytes_bytes (encode i)).symm ▸ h⟩⟩

end Sys2Proof
end

section
/-! Timers and keys (40_step.md R108): no shared operation touches them, so no instruction does but Fx15 and Fx18, which
write one timer each. -/

namespace Sys2Proof.Machine

/-- The delay timer, the sound timer and the key input register are in `t` what they are in `s`. -/
def KeepsTimersAndKeys (s t : State) : Prop := t.keys = s.keys ∧ t.dt = s.dt ∧ t.st = s.st

/-! ### The shared operations keep them -/

section
variable (s : State)

theorem State.raiseFrom_keepsTimersAndKeys (c : Cause) (i : Instr) : KeepsTimersAndKeys s (s.raiseFrom c i) := by
  rw [State.raiseFrom_eq]
  exact ⟨rfl, rfl, rfl⟩

theorem State.checkRange_keepsTimersAndKeys (hi : Nat) (i : Instr) {body : State → State}
    (h : KeepsTimersAndKeys s (body s)) : KeepsTimersAndKeys s (s.checkRange hi i body) := by
  rcases s.checkRange_cases hi i body with ⟨-, e⟩ | ⟨-, e⟩ <;> rw [e]
  · exact h
  · exact s.raiseFrom_keepsTimersAndKeys _ _

theorem State.skipIf_keepsTimersAndKeys (c : Bool) : KeepsTimersAndKeys s (s.skipIf c) := by
  rw [State.skipIf_eq]
  exact ⟨rfl, rfl, rfl⟩

theorem State.skipOnKey_keepsTimersAndKeys (x : Nibble) (i : Instr) (down : Bool) :
    KeepsTimersAndKeys s (s.skipOnKey x i down) := by
  rcases s.skipOnKey_cases x i down with ⟨-, e⟩ | ⟨-, e⟩ <;> rw [e]
  · exact s.raiseFrom_keepsTimersAndKeys _ _
  · exact ⟨rfl, rfl, rfl⟩

theorem State.loadRegs_keepsTimersAndKeys (k : Nat) (bs : List Byte) : KeepsTimersAndKeys s (s.loadRegs k bs) := by
  rw [State.loadRegs_frame]
  exact ⟨rfl, rfl, rfl⟩

theorem State.drawSprite_keepsTimersAndKeys (X Y : Nat) (rows : List Byte) :
    KeepsTimersAndKeys s (s.drawSprite X Y rows) := by
  rw [State.drawSprite_frame]
  exact ⟨rfl, rfl, rfl⟩

end

/-! ### What an instruction does to them -/

/-- Fx15 writes DT and Fx18 writes ST, each with V[x]; every other instruction keeps all three. -/
theorem exec_timersAndKeys_cases {i : Instr} {s t : State} (h : exec i s = .next t) :
    KeepsTimersAndKeys s t ∨ (∃ x, i = .ldDtVx x ∧ t = s.setDt (s.getV x)) ∨
      (∃ x, i = .ldStVx x ∧ t = s.setSt (s.getV x)) := by
  cases i
  case ldDtVx x => cases h; exact .inr (.inl ⟨x, rfl, rfl⟩)
  case ldStVx x => cases h; exact .inr (.inr ⟨x, rfl, rfl⟩)
  all_goals left
  case ret x =>
    rcases execRet_cases s x with ⟨_, e⟩ | ⟨-, e⟩ <;> cases e.symm.trans h
    · exact ⟨rfl, rfl, rfl⟩
    · exact s.raiseFrom_keepsTimersAndKeys _ _
  case call nnn =>
    rcases execCall_cases s nnn with ⟨_, e⟩ | ⟨-, e⟩ <;> cases e.symm.trans h
    · exact ⟨rfl, rfl, rfl⟩
    · exact s.raiseFrom_keepsTimersAndKeys _ _
  case seImm | sneImm | seReg | sneReg => cases h; exact s.skipIf_keepsTimersAndKeys _
  case skp | sknp => cases h; exact s.skipOnKey_keepsTimersAndKeys _ _ _
  case drw x y n =>
    rcases execDrw_cases s x y n with ⟨-, e⟩ | ⟨-, e⟩ <;> cases e.symm.trans h
    · exact s.drawSprite_keepsTimersAndKeys _ _ _
    · exact s.raiseFrom_keepsTimersAndKeys _ _
  case ldBVx | ldMemVx => cases h; exact s.checkRange_keepsTimersAndKeys _ _ ⟨rfl, rfl, rfl⟩
  case ldVxMem => cases h; exact s.checkRange_keepsTimersAndKeys _ _ (s.loadRegs_keepsTimersAndKeys _ _)
  case ldVxK => cases h; split <;> exact ⟨rfl, rfl, rfl⟩
  -- The others write registers, I, PC, the framebuffer or the count of draws, and nothing else.
  all_goals cases h; exact ⟨rfl, rfl, rfl⟩

/-- Settles O13: of the ways a step can end (`step_cases`) only the one that executes an instruction can touch DT or ST,
and that one starts from a state that differs in PC and the report alone, so `exec_timersAndKeys_cases` says what it
leaves. -/
theorem stepLeavesTimersAndKeys : Obligations.StepLeavesTimersAndKeys := by
  intro s t h
  rcases step_cases h with ⟨-, rfl⟩ | ⟨-, -, rfl⟩ | ⟨-, -, -, rfl⟩ | ⟨-, -, i, hi, hexec⟩
  · exact ⟨rfl, .inl rfl, .inl rfl⟩
  · exact ⟨rfl, .inl rfl, .inl rfl⟩
  · exact ⟨rfl, .inl rfl, .inl rfl⟩
  · rcases exec_timersAndKeys_cases hexec with ⟨hk, hdt, hst⟩ | ⟨x, rfl, rfl⟩ | ⟨x, rfl, rfl⟩
    · exact ⟨hk, .inl hdt, .inl hst⟩
    · exact ⟨rfl, .inr ⟨x, hi⟩, .inl rfl⟩
    · exact ⟨rfl, .inl rfl, .inr ⟨x, hi⟩⟩

end Sys2Proof.Machine
end

section
/-! The step of a running block whose word was fetched (40_step.md R101 to R104): it runs the instruction, or passes the
unknown word. -/

namespace Sys2Proof.Machine

theorem runWord_of_decode_eq_ok {op : Word} {i : Instr} (h : decode op = .ok i) (s : State) :
    runWord op s = exec i s.beginInstr := by
  rw [runWord, h]

theorem runWord_of_decode_ne_ok {op : Word} (h : ∀ i, decode op ≠ .ok i) (s : State) :
    runWord op s = .next (s.unknownWord op) := by
  cases hd : decode op with
  | ok i => exact absurd hd (h i)
  | error e => rw [runWord, hd]

/-- Not halted, and both bytes at PC exist: the step runs the word there. -/
theorem step_eq_runWord {s : State} (hrun : s.halted = false) (hpc : s.pc.toNat + 1 < 4096) :
    step s = runWord s.fetchWord s := by
  simp only [step, cycle, hrun, s.fetchable_iff.mpr hpc, if_true, Bool.false_eq_true, if_false]

/-- Settles O7: `State.beginInstr` is the state with PC advanced and no report. -/
theorem stepRunsTheDecodedInstruction : Obligations.StepRunsTheDecodedInstruction := by
  intro s i hrun hpc hi
  rw [step_eq_runWord hrun hpc, runWord_of_decode_eq_ok hi, State.beginInstr_eq]

/-- Settles O10: `State.unknownWord` is the state with PC advanced and the report of the word. -/
theorem unknownOpcodeIsReportedAndPassed : Obligations.UnknownOpcodeIsReportedAndPassed := by
  intro s hrun hpc hunknown
  rw [step_eq_runWord hrun hpc, runWord_of_decode_ne_ok hunknown, State.unknownWord_eq]

end Sys2Proof.Machine
end

section
/-! The jump (41_control_flow.md R123): the words that are JP, and what JP does. -/

namespace Sys2Proof.Machine

/-- A row whose mask is 0xF000 selects the words of its pattern's class (R88). -/
theorem selects_of_fieldClass {pattern : Word} {mk : Word → Instr}
    (hdecode : ∀ op, fieldClass op = fieldClass pattern → decode op = .ok (mk op)) : Selects 0xF000 pattern mk := by
  intro op hop
  have hclass : fieldClass op = fieldClass pattern := by rw [← hop, fieldClass_and_F000]
  exact hdecode op hclass

theorem decode_of_fieldClass_1 {op : Word} (h : fieldClass op = 0x1) : decode op = .ok (.jp (fieldNNN op)) := by
  simp [decode, h]

theorem exec_jp (nnn : Addr) (s : State) : exec (.jp nnn) s = .next (s.setPc (addrOperand nnn)) := rfl

/-- Settles O22: class 1 is JP alone, and JP is one `State.setPc`, whose record update is the statement's. -/
theorem jumpGoesToItsAddress : Obligations.JumpGoesToItsAddress :=
  ⟨selects_of_fieldClass fun _ => decode_of_fieldClass_1, exec_jp⟩

end Sys2Proof.Machine
end

section
/-! The register skips (42_skips.md R141 to R144): the words of each, and when each skips. -/

namespace Sys2Proof.Machine

/-! ### Their words -/

theorem decode_of_fieldClass_3 {op : Word} (h : fieldClass op = 0x3) :
    decode op = .ok (.seImm (fieldX op) (fieldNN op)) := by
  simp [decode, h]

theorem decode_of_fieldClass_4 {op : Word} (h : fieldClass op = 0x4) :
    decode op = .ok (.sneImm (fieldX op) (fieldNN op)) := by
  simp [decode, h]

theorem decode_of_fieldClass_5 {op : Word} (h : fieldClass op = 0x5) :
    decode op = .ok (.seReg (fieldX op) (fieldY op) (fieldN op)) := by
  simp [decode, h]

theorem decode_of_fieldClass_9 {op : Word} (h : fieldClass op = 0x9) :
    decode op = .ok (.sneReg (fieldX op) (fieldY op) (fieldN op)) := by
  simp [decode, h]

/-! ### What they do: each skips on its own condition -/

section
variable (s : State) (x y n : Nibble) (nn : Byte)

theorem exec_seImm : exec (.seImm x nn) s = .next (s.skipIf (decide (s.getV x = nn))) := rfl

theorem exec_sneImm : exec (.sneImm x nn) s = .next (s.skipIf (decide (s.getV x ≠ nn))) := rfl

theorem exec_seReg : exec (.seReg x y n) s = .next (s.skipIf (decide (s.getV x = s.getV y))) := rfl

theorem exec_sneReg : exec (.sneReg x y n) s = .next (s.skipIf (decide (s.getV x ≠ s.getV y))) := rfl

/-- A skip on `p` moves PC when `p` holds and leaves it otherwise. -/
theorem State.skipIf_decide (p : Prop) [Decidable p] :
    s.skipIf (decide p) = { s with pc := if p then s.pc + 2 else s.pc } := by
  simp only [State.skipIf_eq, decide_eq_true_eq]

/-- A skip on `¬ p` leaves PC when `p` holds and moves it otherwise. -/
theorem State.skipIf_decide_not (p : Prop) [Decidable p] :
    s.skipIf (decide ¬p) = { s with pc := if p then s.pc else s.pc + 2 } := by
  rw [State.skipIf_decide, ite_not]

end

/-- Settles O27: a class each for the four, and PC moves on the condition of SE, on the failure of that of SNE. -/
theorem registerSkipsSkip : Obligations.RegisterSkipsSkip := by
  refine ⟨⟨?_, ?_, ?_, ?_⟩, fun s x y n nn => ⟨?_, ?_, ?_, ?_⟩⟩
  · exact selects_of_fieldClass fun _ => decode_of_fieldClass_3
  · exact selects_of_fieldClass fun _ => decode_of_fieldClass_4
  · exact selects_of_fieldClass fun _ => decode_of_fieldClass_5
  · exact selects_of_fieldClass fun _ => decode_of_fieldClass_9
  · rw [exec_seImm, State.skipIf_decide]
  · rw [exec_sneImm, State.skipIf_decide_not]
  · rw [exec_seReg, State.skipIf_decide]
  · rw [exec_sneReg, State.skipIf_decide_not]

end Sys2Proof.Machine
end

section
/-! The words of class 0x8 (30_encoding.md R83, R88): a row of the class looks at `n` beside it. -/

namespace Sys2Proof.Machine

theorem decode_of_fieldClass_8 {op : Word} (h : fieldClass op = 0x8) : decode op = decodeClass8 op := by
  simp [decode, h]

/-- A row of class 0x8 selects the words of the class that have its pattern's `n` (R88). -/
theorem selects_of_fieldN {pattern : Word} {mk : Word → Instr} (hclass : fieldClass pattern = 0x8)
    (hdecode : ∀ op, fieldN op = fieldN pattern → decodeClass8 op = .ok (mk op)) : Selects 0xF00F pattern mk := by
  intro op hop
  have hc : fieldClass op = 0x8 := by rw [← hclass, ← hop, fieldClass_and_F00F]
  have hn : fieldN op = fieldN pattern := by rw [← hop, fieldN_and_F00F]
  exact (decode_of_fieldClass_8 hc).trans (hdecode op hn)

section
variable {op : Word}

theorem decodeClass8_of_fieldN_0 (h : fieldN op = 0x0) : decodeClass8 op = .ok (.ldReg (fieldX op) (fieldY op)) := by
  simp [decodeClass8, h]

theorem decodeClass8_of_fieldN_1 (h : fieldN op = 0x1) : decodeClass8 op = .ok (.or (fieldX op) (fieldY op)) := by
  simp [decodeClass8, h]

theorem decodeClass8_of_fieldN_2 (h : fieldN op = 0x2) : decodeClass8 op = .ok (.and (fieldX op) (fieldY op)) := by
  simp [decodeClass8, h]

theorem decodeClass8_of_fieldN_3 (h : fieldN op = 0x3) : decodeClass8 op = .ok (.xor (fieldX op) (fieldY op)) := by
  simp [decodeClass8, h]

theorem decodeClass8_of_fieldN_4 (h : fieldN op = 0x4) : decodeClass8 op = .ok (.addReg (fieldX op) (fieldY op)) := by
  simp [decodeClass8, h]

theorem decodeClass8_of_fieldN_5 (h : fieldN op = 0x5) : decodeClass8 op = .ok (.sub (fieldX op) (fieldY op)) := by
  simp [decodeClass8, h]

theorem decodeClass8_of_fieldN_6 (h : fieldN op = 0x6) : decodeClass8 op = .ok (.shr (fieldX op) (fieldY op)) := by
  simp [decodeClass8, h]

theorem decodeClass8_of_fieldN_7 (h : fieldN op = 0x7) : decodeClass8 op = .ok (.subn (fieldX op) (fieldY op)) := by
  simp [decodeClass8, h]

theorem decodeClass8_of_fieldN_E (h : fieldN op = 0xE) : decodeClass8 op = .ok (.shl (fieldX op) (fieldY op)) := by
  simp [decodeClass8, h]

end

end Sys2Proof.Machine
end

section
/-! Byte arithmetic as arithmetic of naturals modulo 256 (43_alu.md R162), and the flags of the flag group as conditions
on naturals (R169 to R174). -/

namespace Sys2Proof.Machine

section
variable (v w : Byte)

theorem byte_add_eq_ofNat : v + w = BitVec.ofNat 8 ((v.toNat + w.toNat) % 256) :=
  BitVec.eq_of_toNat_eq (by simp)

theorem byte_sub_eq_ofNat : v - w = BitVec.ofNat 8 ((v.toNat + 256 - w.toNat) % 256) := by
  apply BitVec.eq_of_toNat_eq
  rw [BitVec.toNat_sub, BitVec.toNat_ofNat]
  omega

theorem byte_ushiftRight_one_eq_ofNat : v >>> 1 = BitVec.ofNat 8 (v.toNat / 2) := by
  apply BitVec.eq_of_toNat_eq
  rw [BitVec.toNat_ushiftRight, BitVec.toNat_ofNat, Nat.shiftRight_eq_div_pow]
  omega

theorem byte_shiftLeft_one_eq_ofNat : v <<< 1 = BitVec.ofNat 8 (v.toNat * 2 % 256) := by
  apply BitVec.eq_of_toNat_eq
  rw [BitVec.toNat_shiftLeft, BitVec.toNat_ofNat, Nat.shiftLeft_eq]
  omega

theorem flagByte_eq_one_iff (c : Bool) : flagByte c = 1 ↔ c = true := by
  cases c <;> decide

theorem flagByte_eq_zero_iff (c : Bool) : flagByte c = 0 ↔ ¬ c = true := by
  cases c <;> decide

theorem flagByte_decide (p : Prop) [Decidable p] : flagByte (decide p) = if p then 1 else 0 := by
  simp only [flagByte, decide_eq_true_eq]

theorem carryFlag_eq : carryFlag v w = if v.toNat + w.toNat > 255 then 1 else 0 :=
  flagByte_decide _

theorem carryFlag_eq_one_iff : carryFlag v w = 1 ↔ v.toNat + w.toNat > 255 := by
  rw [carryFlag, flagByte_eq_one_iff, decide_eq_true_eq]

theorem carryFlag_eq_zero_iff : carryFlag v w = 0 ↔ ¬ v.toNat + w.toNat > 255 := by
  rw [carryFlag, flagByte_eq_zero_iff, decide_eq_true_eq]

theorem noBorrowFlag_eq : noBorrowFlag v w = if v.toNat ≥ w.toNat then 1 else 0 :=
  flagByte_decide _

theorem lowBitFlag_eq : lowBitFlag v = BitVec.ofNat 8 (v.toNat % 2) := by
  apply BitVec.eq_of_toNat_eq
  rw [lowBitFlag, BitVec.toNat_and, BitVec.toNat_ofNat]
  change v.toNat &&& 1 = _
  rw [Nat.and_one_is_mod]
  omega

theorem highBitFlag_eq : highBitFlag v = BitVec.ofNat 8 (v.toNat / 128) := by
  have hv := v.isLt
  have hbit : (v >>> 7).toNat = v.toNat / 128 := by rw [BitVec.toNat_ushiftRight, Nat.shiftRight_eq_div_pow]
  rw [show highBitFlag v = lowBitFlag (v >>> 7) from rfl, lowBitFlag_eq, hbit, Nat.mod_eq_of_lt (by omega)]

end

end Sys2Proof.Machine
end

section
/-! Loads, immediate addition and logic (43_alu.md R160 to R166): the words of each, and the one register each writes. -/

namespace Sys2Proof.Machine

theorem decode_of_fieldClass_6 {op : Word} (h : fieldClass op = 0x6) :
    decode op = .ok (.ldImm (fieldX op) (fieldNN op)) := by
  simp [decode, h]

theorem decode_of_fieldClass_7 {op : Word} (h : fieldClass op = 0x7) :
    decode op = .ok (.addImm (fieldX op) (fieldNN op)) := by
  simp [decode, h]

section
variable (s : State) (x y : Nibble) (nn : Byte)

theorem exec_ldImm : exec (.ldImm x nn) s = .next (s.setV x nn) := rfl

theorem exec_addImm : exec (.addImm x nn) s = .next (s.setV x (s.getV x + nn)) := rfl

theorem exec_ldReg : exec (.ldReg x y) s = .next (s.setV x (s.getV y)) := rfl

theorem exec_or : exec (.or x y) s = .next (s.setV x (s.getV x ||| s.getV y)) := rfl

theorem exec_and : exec (.and x y) s = .next (s.setV x (s.getV x &&& s.getV y)) := rfl

theorem exec_xor : exec (.xor x y) s = .next (s.setV x (s.getV x ^^^ s.getV y)) := rfl

end

/-- Settles O29: each of the six is one `State.setV`; only the sum of ADD has to be read as a natural modulo 256. -/
theorem loadsAndLogicWriteTheirRegister : Obligations.LoadsAndLogicWriteTheirRegister := by
  refine ⟨⟨?_, ?_, ?_, ?_, ?_, ?_⟩, fun s x y nn => ⟨exec_ldImm s x nn, ?_, exec_ldReg s x y, exec_or s x y,
    exec_and s x y, exec_xor s x y⟩⟩
  · exact selects_of_fieldClass fun _ => decode_of_fieldClass_6
  · exact selects_of_fieldClass fun _ => decode_of_fieldClass_7
  · exact selects_of_fieldN rfl fun _ => decodeClass8_of_fieldN_0
  · exact selects_of_fieldN rfl fun _ => decodeClass8_of_fieldN_1
  · exact selects_of_fieldN rfl fun _ => decodeClass8_of_fieldN_2
  · exact selects_of_fieldN rfl fun _ => decodeClass8_of_fieldN_3
  · rw [exec_addImm, byte_add_eq_ofNat]

end Sys2Proof.Machine
end

section
/-! The flag group (43_alu.md R167 to R174): the words of each, and the two writes it makes, VF first. -/

namespace Sys2Proof.Machine

section
variable (s : State) (x y : Nibble)

theorem State.flagThenValue_eq (flag : Byte) (value : State → Byte) :
    s.flagThenValue x flag value = (s.setV 0xF flag).setV x (value (s.setV 0xF flag)) := rfl

theorem exec_addReg : exec (.addReg x y) s =
    .next (s.flagThenValue x (carryFlag (s.getV x) (s.getV y)) fun _ => s.getV x + s.getV y) := rfl

theorem exec_sub : exec (.sub x y) s =
    .next (s.flagThenValue x (noBorrowFlag (s.getV x) (s.getV y)) fun t => t.getV x - t.getV y) := rfl

theorem exec_shr : exec (.shr x y) s =
    .next (s.flagThenValue x (lowBitFlag (s.getV x)) fun t => t.getV x >>> 1) := rfl

theorem exec_subn : exec (.subn x y) s =
    .next (s.flagThenValue x (noBorrowFlag (s.getV y) (s.getV x)) fun t => t.getV y - t.getV x) := rfl

theorem exec_shl : exec (.shl x y) s =
    .next (s.flagThenValue x (highBitFlag (s.getV x)) fun t => t.getV x <<< 1) := rfl

/-- With x other than 0xF the flag survives the write of the value. -/
theorem State.getV_F_flagThenValue {x : Nibble} (h : x ≠ 0xF) (flag : Byte) (value : State → Byte) :
    (s.flagThenValue x flag value).getV 0xF = flag := by
  rw [State.flagThenValue_eq, State.getV_setV_ne _ h, State.getV_setV_self]

end

/-- Settles O30: VF keeps the carry because the sum goes to another register, and the carry is 1 or 0 by the exact
sum. -/
theorem addRegisterCarriesIntoVF : Obligations.AddRegisterCarriesIntoVF := by
  refine ⟨selects_of_fieldN rfl fun _ => decodeClass8_of_fieldN_4, fun s x y hx => ⟨_, exec_addReg s x y, ?_, ?_, ?_⟩⟩
  · rw [State.flagThenValue_eq, carryFlag_eq, byte_add_eq_ofNat]
  · rw [s.getV_F_flagThenValue hx, carryFlag_eq_one_iff]
  · rw [s.getV_F_flagThenValue hx, carryFlag_eq_zero_iff]

/-- Settles O31: `f` is the state that the write of VF leaves, from which `State.flagThenValue` reads both operands. -/
theorem subtractionsFlagNoBorrow : Obligations.SubtractionsFlagNoBorrow := by
  refine ⟨⟨?_, ?_⟩, fun s f x y => ⟨?_, ?_⟩⟩
  · exact selects_of_fieldN rfl fun _ => decodeClass8_of_fieldN_5
  · exact selects_of_fieldN rfl fun _ => decodeClass8_of_fieldN_7
  · rintro rfl
    rw [exec_sub, State.flagThenValue_eq, noBorrowFlag_eq, byte_sub_eq_ofNat]
  · rintro rfl
    rw [exec_subn, State.flagThenValue_eq, noBorrowFlag_eq, byte_sub_eq_ofNat]

/-- Settles O32: `f` is the state that the write of VF leaves, from which `State.flagThenValue` reads what is shifted. -/
theorem shiftsMoveVxByOneBit : Obligations.ShiftsMoveVxByOneBit := by
  refine ⟨⟨?_, ?_⟩, fun s f x y => ⟨?_, ?_⟩⟩
  · exact selects_of_fieldN rfl fun _ => decodeClass8_of_fieldN_6
  · exact selects_of_fieldN rfl fun _ => decodeClass8_of_fieldN_E
  · rintro rfl
    rw [exec_shr, State.flagThenValue_eq, lowBitFlag_eq, byte_ushiftRight_one_eq_ofNat]
  · rintro rfl
    rw [exec_shl, State.flagThenValue_eq, highBitFlag_eq, byte_shiftLeft_one_eq_ofNat]

end Sys2Proof.Machine
end

section
/-! The words of the classes 0x0, 0xE and 0xF (30_encoding.md R83, R88): a row of these classes looks at `nn` beside the
class. -/

namespace Sys2Proof.Machine

/-- A row whose mask is 0xF0FF selects the words that have its pattern's class and `nn` (R88). -/
theorem selects_of_fieldNN {pattern : Word} {mk : Word → Instr}
    (hdecode : ∀ op, fieldClass op = fieldClass pattern → fieldNN op = fieldNN pattern → decode op = .ok (mk op)) :
    Selects 0xF0FF pattern mk := by
  intro op hop
  have hclass : fieldClass op = fieldClass pattern := by rw [← hop, fieldClass_and_F0FF]
  have hnn : fieldNN op = fieldNN pattern := by rw [← hop, fieldNN_and_F0FF]
  exact hdecode op hclass hnn

theorem decode_of_fieldClass_F {op : Word} (h : fieldClass op = 0xF) : decode op = decodeClassF op := by
  simp [decode, h]

/-- A row of class 0xF selects the words of the class that have its pattern's `nn` (R88). -/
theorem selects_of_fieldNN_classF {pattern : Word} {mk : Word → Instr} (hclass : fieldClass pattern = 0xF)
    (hdecode : ∀ op, fieldNN op = fieldNN pattern → decodeClassF op = .ok (mk op)) : Selects 0xF0FF pattern mk :=
  selects_of_fieldNN fun op hc hnn => (decode_of_fieldClass_F (hc.trans hclass)).trans (hdecode op hnn)

end Sys2Proof.Machine
end

section
/-! Loads of the index register (44_index_memory.md R200, R202): the words of Annn and Fx29, and what I becomes. -/

namespace Sys2Proof.Machine

theorem decode_of_fieldClass_A {op : Word} (h : fieldClass op = 0xA) : decode op = .ok (.ldI (fieldNNN op)) := by
  simp [decode, h]

theorem decodeClassF_of_fieldNN_29 {op : Word} (h : fieldNN op = 0x29) :
    decodeClassF op = .ok (.ldFVx (fieldX op)) := by
  simp [decodeClassF, h]

theorem exec_ldI (nnn : Addr) (s : State) : exec (.ldI nnn) s = .next (s.setIdx (addrOperand nnn)) := rfl

theorem exec_ldFVx (x : Nibble) (s : State) : exec (.ldFVx x) s = .next (s.setIdx (glyphAddr (s.getV x))) := rfl

/-- Settles O36: each of the two is one `State.setIdx`, whose record update is the statement's. -/
theorem indexLoads : Obligations.IndexLoads := by
  refine ⟨⟨?_, ?_⟩, fun s nnn x => ⟨exec_ldI nnn s, exec_ldFVx x s⟩⟩
  · exact selects_of_fieldClass fun _ => decode_of_fieldClass_A
  · exact selects_of_fieldNN_classF rfl fun _ => decodeClassF_of_fieldNN_29

end Sys2Proof.Machine
end

section
/-! The decimal store (44_index_memory.md R203, R204): the words of Fx33, and the three bytes it leaves in memory. -/

namespace Sys2Proof.Machine

theorem decodeClassF_of_fieldNN_33 {op : Word} (h : fieldNN op = 0x33) :
    decodeClassF op = .ok (.ldBVx (fieldX op)) := by
  simp [decodeClassF, h]

/-! ### The digits of a byte: each is below 256, so none is cut -/

section
variable (b : Byte)

theorem toNat_hundreds_decimalDigits : ((decimalDigits b).getD 0 0).toNat = b.toNat / 100 :=
  Nat.mod_eq_of_lt (show b.toNat / 100 < 256 by omega)

theorem toNat_tens_decimalDigits : ((decimalDigits b).getD 1 0).toNat = b.toNat / 10 % 10 :=
  Nat.mod_eq_of_lt (show b.toNat / 10 % 10 < 256 by omega)

theorem toNat_units_decimalDigits : ((decimalDigits b).getD 2 0).toNat = b.toNat % 10 :=
  Nat.mod_eq_of_lt (show b.toNat % 10 < 256 by omega)

end

/-! ### What Fx33 leaves in memory -/

/-- In range, Fx33 writes the three digits from I up and nothing else. -/
theorem exec_ldBVx_of_lt {s : State} (h : s.dataAddr 2 < 4096) (x : Nibble) : exec (.ldBVx x) s =
    .next (s.setMem (s.mem.writeBytes (s.dataAddr 0) (decimalDigits (s.getV x)))) :=
  congrArg _ (s.checkRange_pos h _ _)

section
variable {s : State} (hmem : Memory.wf s.mem) (hrange : s.dataAddr 2 < 4096) (b : Byte)
include hmem hrange

/-- An address of the three reads as its digit. -/
theorem State.read_writeBytes_decimalDigits {k : Nat} (hk : k < 3) :
    (s.mem.writeBytes (s.dataAddr 0) (decimalDigits b)).read (s.dataAddr k) = (decimalDigits b).getD k 0 := by
  have hlen : (decimalDigits b).length = 3 := rfl
  simp only [State.dataAddr] at hrange ⊢
  rw [Memory.read_writeBytes hmem (by simp only [hlen, Config.memSize]; omega), if_pos (by omega)]
  congr 1
  omega

/-- An address outside the three reads as before. -/
theorem State.read_writeBytes_decimalDigits_of_outside {a : Nat} (ha : a < s.dataAddr 0 ∨ s.dataAddr 2 < a) :
    (s.mem.writeBytes (s.dataAddr 0) (decimalDigits b)).read a = s.mem.read a := by
  have hlen : (decimalDigits b).length = 3 := rfl
  simp only [State.dataAddr] at hrange ha ⊢
  rw [Memory.read_writeBytes hmem (by simp only [hlen, Config.memSize]; omega), if_neg (by omega)]

end

/-- Settles O38: in range Fx33 is one write of the three digits, each of which reads back at its own address. -/
theorem decimalDigitsAreStored : Obligations.DecimalDigitsAreStored := by
  refine ⟨selects_of_fieldNN_classF rfl fun _ => decodeClassF_of_fieldNN_33,
    fun s x hmem hrange => ⟨_, exec_ldBVx_of_lt hrange x, rfl, ?_, ?_, ?_, fun a ha => ?_⟩⟩
  · rw [State.setMem_mem, State.read_writeBytes_decimalDigits hmem hrange _ (by decide), toNat_hundreds_decimalDigits]
  · rw [State.setMem_mem, State.read_writeBytes_decimalDigits hmem hrange _ (by decide), toNat_tens_decimalDigits]
  · rw [State.setMem_mem, State.read_writeBytes_decimalDigits hmem hrange _ (by decide), toNat_units_decimalDigits]
  · exact State.read_writeBytes_decimalDigits_of_outside hmem hrange _ ha

end Sys2Proof.Machine
end

section
/-! The index register after the memory instructions (44_index_memory.md R208): the bulk moves pass the bytes they moved,
Fx33 and Dxyn leave I where it was. -/

namespace Sys2Proof.Machine

section
variable {s t : State} {x y n : Nibble}

/-- Past a run that exists, `I + x + 1` is at most 4096, so it does not wrap. -/
theorem State.toNat_idxPast (h : s.idx.toNat + x.toNat < 4096) :
    (s.idxPast x).toNat = s.idx.toNat + x.toNat + 1 := by
  rw [State.idxPast, BitVec.toNat_add, BitVec.toNat_ofNat]
  omega

theorem State.raiseFrom_idx (c : Cause) (i : Instr) : (s.raiseFrom c i).idx = s.idx := by
  rw [State.raiseFrom_eq]

theorem State.drawSprite_idx (X Y : Nat) (rows : List Byte) : (s.drawSprite X Y rows).idx = s.idx := by
  rw [State.drawSprite_frame]

/-- In range, each bulk move ends with I past the last byte it moved. -/
theorem idx_of_exec_bulkMove (hrange : s.dataAddr x.toNat < 4096)
    (h : exec (.ldMemVx x) s = .next t ∨ exec (.ldVxMem x) s = .next t) : t.idx = s.idxPast x := by
  rcases h with h | h <;> cases h <;> rw [s.checkRange_pos hrange, State.setIdx_idx]

/-- Fx33 leaves I, in range and out of it. -/
theorem idx_of_exec_ldBVx (h : exec (.ldBVx x) s = .next t) : t.idx = s.idx := by
  rcases execLdBVx_cases s x with ⟨-, e⟩ | ⟨-, e⟩ <;> cases e.symm.trans h
  · rfl
  · exact State.raiseFrom_idx _ _

/-- Dxyn leaves I, in range and out of it. -/
theorem idx_of_exec_drw (h : exec (.drw x y n) s = .next t) : t.idx = s.idx := by
  rcases execDrw_cases s x y n with ⟨-, e⟩ | ⟨-, e⟩ <;> cases e.symm.trans h
  · exact State.drawSprite_idx _ _ _
  · exact State.raiseFrom_idx _ _

end

/-- Settles O41: the bulk moves end with `State.idxPast`, which does not wrap in range; Fx33 and Dxyn keep I whether they
complete or raise MEM_RANGE. -/
theorem bulkMovesAdvanceTheIndex : Obligations.BulkMovesAdvanceTheIndex := by
  refine fun s t x y n => ⟨fun hrange hmove => ?_, fun h => h.elim idx_of_exec_ldBVx idx_of_exec_drw⟩
  rw [idx_of_exec_bulkMove hrange hmove, State.toNat_idxPast hrange]

end Sys2Proof.Machine
end

section
/-! Clearing the screen (45_display.md R230): the words of 00E0, and what it leaves. -/

namespace Sys2Proof.Machine

theorem decode_of_fieldClass_0 {op : Word} (h : fieldClass op = 0x0) : decode op = decodeClass0 op := by
  simp [decode, h]

theorem decodeClass0_of_fieldNN_E0 {op : Word} (h : fieldNN op = 0xE0) :
    decodeClass0 op = .ok (.cls (fieldX op)) := by
  simp [decodeClass0, h]

theorem exec_cls (x : Nibble) (s : State) : exec (.cls x) s = .next s.clearFb := rfl

/-- Settles O42: class 0 with `nn` = 0xE0 is CLS, and CLS is `State.clearFb`, which writes the framebuffer alone and
leaves every cell 0. -/
theorem clearZeroesEveryCell : Obligations.ClearZeroesEveryCell :=
  ⟨selects_of_fieldNN fun _ hclass hnn => (decode_of_fieldClass_0 hclass).trans (decodeClass0_of_fieldNN_E0 hnn),
    fun s x => ⟨s.clearFb, exec_cls x s, rfl, s.pixel_clearFb⟩⟩

end Sys2Proof.Machine
end

section
/-! The cells of a sprite (45_display.md R232, R234, R235): up to 32 rows cover each cell at most once, and the cells
that the rows read at I cover are those that `State.spriteCovers` names. -/

namespace Sys2Proof.Machine

/-- Two coordinates name one cell exactly when they agree modulo the screen's width and height. -/
theorem fbCell_eq_iff (x y x' y' : Nat) : fbCell x y = fbCell x' y' ↔ x % 64 = x' % 64 ∧ y % 32 = y' % 32 := by
  simp only [fbCell, Fin.mk.injEq]
  omega

/-- A byte's eight columns stay apart modulo 64. -/
theorem nodup_rowCells (X Y : Nat) (b : Byte) : (rowCells X Y b).Nodup := by
  refine List.Nodup.map_on (fun c hc c' hc' heq => ?_) (List.nodup_range.filter _)
  have hlt : c < 8 := List.mem_range.mp (List.mem_of_mem_filter hc)
  have hlt' : c' < 8 := List.mem_range.mp (List.mem_of_mem_filter hc')
  obtain ⟨hcol, -⟩ := (fbCell_eq_iff _ _ _ _).mp heq
  omega

/-- A row meets none of the up to 31 rows below it: their numbers differ modulo 32. -/
theorem disjoint_rowCells_spriteCells (X Y : Nat) (b : Byte) {rows : List Byte} (h : rows.length < 32) :
    List.Disjoint (rowCells X Y b) (spriteCells X (Y + 1) rows) := by
  intro p hrow hbelow
  obtain ⟨c, -, -, rfl⟩ := (mem_rowCells X Y b p).mp hrow
  obtain ⟨r, hr, c', -, -, heq⟩ := (mem_spriteCells X (Y + 1) rows _).mp hbelow
  obtain ⟨-, hsameRow⟩ := (fbCell_eq_iff _ _ _ _).mp heq
  omega

/-- R235, for any sprite no taller than the screen. -/
theorem nodup_spriteCells (X Y : Nat) {rows : List Byte} (h : rows.length ≤ 32) : (spriteCells X Y rows).Nodup := by
  induction rows generalizing Y with
  | nil => exact List.nodup_nil
  | cons b rows ih =>
    rw [List.length_cons] at h
    exact List.nodup_append'.mpr
      ⟨nodup_rowCells X Y b, ih (Y + 1) (by omega), disjoint_rowCells_spriteCells X Y b (by omega)⟩

/-- The `n` bytes from I up, which Dxyn draws. -/
def State.spriteRows (s : State) (n : Nibble) : List Byte := s.mem.readBytes (s.dataAddr 0) n.toNat

section
variable (s : State) (X Y : Nat) (n : Nibble)

theorem State.nodup_spriteCells_spriteRows : (spriteCells X Y (s.spriteRows n)).Nodup := by
  have hlen : (s.spriteRows n).length = n.toNat := Memory.length_readBytes _ _ _
  exact nodup_spriteCells X Y (by omega)

theorem State.mem_spriteCells_spriteRows (p : Fin 2048) :
    p ∈ spriteCells X Y (s.spriteRows n) ↔ s.spriteCovers X Y n.toNat p := by
  have hrow {r : Nat} (hr : r < n.toNat) : (s.spriteRows n).getD r 0 = s.mem.read (s.idx.toNat + r) :=
    s.mem.getD_readBytes _ _ _ hr
  have hcell (c r : Nat) : p = fbCell (X + c) (Y + r) ↔ p.val = (Y + r) % 32 * 64 + (X + c) % 64 := Fin.ext_iff
  rw [mem_spriteCells, State.spriteRows, Memory.length_readBytes]
  constructor
  · rintro ⟨r, hr, c, hc, hbit, hp⟩
    exact ⟨r, c, hr, hc, hrow hr ▸ hbit, (hcell c r).mp hp⟩
  · rintro ⟨r, c, hr, hc, hbit, hp⟩
    exact ⟨r, hr, c, hc, (hrow hr).symm ▸ hbit, (hcell c r).mpr hp⟩

end

end Sys2Proof.Machine
end

section
/-! Drawing (45_display.md R232, R233): the draw in range, its flag, and the same draw twice. -/

namespace Sys2Proof.Machine

section
variable (s : State) {x y n : Nibble}

/-- In range, Dxyn draws the rows at I from the coordinates that V[x] and V[y] hold. -/
theorem exec_drw_of_inRange (h : s.spriteInRange n.toNat) :
    exec (.drw x y n) s = .next (s.drawSprite (s.getV x).toNat (s.getV y).toNat (s.spriteRows n)) := by
  rcases execDrw_cases s x y n with ⟨-, e⟩ | ⟨⟨hn, hout⟩, -⟩
  · exact e
  · rcases h with h0 | hin
    · exact absurd (BitVec.eq_of_toNat_eq h0) hn
    · exact absurd hin (Nat.not_le.mpr hout)

/-! ### The flag of one draw -/

section
variable (X Y : Nat) (n : Nibble)

theorem State.getV_F_drawSprite_eq_one_iff : (s.drawSprite X Y (s.spriteRows n)).getV 0xF = 1 ↔
    ∃ p, s.spriteCovers X Y n.toNat p ∧ s.pixel p = 1 := by
  simp only [← s.mem_spriteCells_spriteRows]
  exact (s.getV_vF_drawSprite (s.nodup_spriteCells_spriteRows X Y n)).congr_left.trans (by simp)

theorem State.getV_F_drawSprite_eq_zero_iff : (s.drawSprite X Y (s.spriteRows n)).getV 0xF = 0 ↔
    ¬ ∃ p, s.spriteCovers X Y n.toNat p ∧ s.pixel p = 1 := by
  simp only [← s.mem_spriteCells_spriteRows]
  exact (s.getV_vF_drawSprite (s.nodup_spriteCells_spriteRows X Y n)).congr_left.trans (by simp)

end

/-! ### The same draw twice -/

theorem State.fb_eq_of_pixel_eq {s t : State} (h : ∀ p, t.pixel p = s.pixel p) : t.fb = s.fb :=
  Vector.ext fun i hi => h ⟨i, hi⟩

/-- Every cell of the sprite is toggled twice, so it holds what it held. -/
theorem State.drawSprite_drawSprite_fb {X Y : Nat} {rows : List Byte} (h : (spriteCells X Y rows).Nodup) :
    ((s.drawSprite X Y rows).drawSprite X Y rows).fb = s.fb := by
  refine State.fb_eq_of_pixel_eq fun p => ?_
  rw [State.pixel_drawSprite _ h, State.pixel_drawSprite _ h]
  split
  · rw [BitVec.xor_assoc, BitVec.xor_self, BitVec.xor_zero]
  · rfl

section
variable (X Y : Nat) (rows : List Byte)

theorem State.drawSprite_mem : (s.drawSprite X Y rows).mem = s.mem := by
  rw [State.drawSprite_frame]

/-- A draw leaves memory and I, so the next draw finds the same rows. -/
theorem State.drawSprite_spriteRows (n : Nibble) : (s.drawSprite X Y rows).spriteRows n = s.spriteRows n := by
  simp only [State.spriteRows, State.dataAddr, State.drawSprite_mem, State.drawSprite_idx]

theorem State.drawSprite_spriteInRange (n : Nat) :
    (s.drawSprite X Y rows).spriteInRange n ↔ s.spriteInRange n := by
  simp only [State.spriteInRange, State.drawSprite_idx]

end

/-- After any draw, Dxyn whose coordinates are not in VF draws the same rows from the same place as before it. -/
theorem exec_drw_drawSprite (hx : x ≠ 0xF) (hy : y ≠ 0xF) (h : s.spriteInRange n.toNat) (X Y : Nat)
    (rows : List Byte) : exec (.drw x y n) (s.drawSprite X Y rows) =
      .next ((s.drawSprite X Y rows).drawSprite (s.getV x).toNat (s.getV y).toNat (s.spriteRows n)) := by
  rw [exec_drw_of_inRange _ ((s.drawSprite_spriteInRange X Y rows _).mpr h), State.getV_drawSprite_ne s X Y rows hx,
    State.getV_drawSprite_ne s X Y rows hy, State.drawSprite_spriteRows]

/-- A covered cell that held 0 holds 1 after the first draw, so the second meets it. -/
theorem State.getV_F_drawSprite_drawSprite_eq_one {X Y : Nat} {p : Fin 2048} (hcov : s.spriteCovers X Y n.toNat p)
    (hclear : s.pixel p = 0) :
    ((s.drawSprite X Y (s.spriteRows n)).drawSprite X Y (s.spriteRows n)).getV 0xF = 1 := by
  have hnodup := s.nodup_spriteCells_spriteRows X Y n
  have hmem := (s.mem_spriteCells_spriteRows X Y n p).mpr hcov
  have hset : (s.drawSprite X Y (s.spriteRows n)).pixel p = 1 := by
    rw [State.pixel_drawSprite s hnodup, if_pos hmem, hclear]
    rfl
  exact (State.getV_vF_drawSprite _ hnodup).trans (if_pos ⟨p, hmem, hset⟩)

end

/-- Settles O44: in range, the draw is `State.drawSprite` of the rows at I. Its flag is exact because the sprite's cells
are distinct; and as it writes neither memory, nor I, nor V[x] and V[y], the second draw toggles the same cells
again. -/
theorem collisionIsExactAndDrawingTwiceCancels : Obligations.CollisionIsExactAndDrawingTwiceCancels := by
  intro s t x y n hx hy hrange hexec
  cases (exec_drw_of_inRange s hrange).symm.trans hexec
  refine ⟨s.getV_F_drawSprite_eq_one_iff _ _ n, s.getV_F_drawSprite_eq_zero_iff _ _ n, _,
    exec_drw_drawSprite s hx hy hrange _ _ _, ?_, ?_⟩
  · exact s.drawSprite_drawSprite_fb (s.nodup_spriteCells_spriteRows _ _ n)
  · rintro ⟨p, hcov⟩ hclear
    exact s.getV_F_drawSprite_drawSprite_eq_one hcov (hclear p hcov)

end Sys2Proof.Machine
end

section
/-! The timer instructions (46_timers_keys.md R250 to R252): the words of Fx07, Fx15 and Fx18, and the one byte each
moves. -/

namespace Sys2Proof.Machine

/-! ### Their words -/

theorem decodeClassF_of_fieldNN_07 {op : Word} (h : fieldNN op = 0x07) :
    decodeClassF op = .ok (.ldVxDt (fieldX op)) := by
  simp [decodeClassF, h]

theorem decodeClassF_of_fieldNN_15 {op : Word} (h : fieldNN op = 0x15) :
    decodeClassF op = .ok (.ldDtVx (fieldX op)) := by
  simp [decodeClassF, h]

theorem decodeClassF_of_fieldNN_18 {op : Word} (h : fieldNN op = 0x18) :
    decodeClassF op = .ok (.ldStVx (fieldX op)) := by
  simp [decodeClassF, h]

/-! ### What they do -/

section
variable (x : Nibble) (s : State)

theorem exec_ldVxDt : exec (.ldVxDt x) s = .next (s.setV x s.dt) := rfl

theorem exec_ldDtVx : exec (.ldDtVx x) s = .next (s.setDt (s.getV x)) := rfl

theorem exec_ldStVx : exec (.ldStVx x) s = .next (s.setSt (s.getV x)) := rfl

end

/-- Settles O46: each of the three is one write, `State.setV`, `State.setDt` or `State.setSt`; the record updates of the
last two are the statement's. -/
theorem timerInstructionsMoveBytes : Obligations.TimerInstructionsMoveBytes := by
  refine ⟨⟨?_, ?_, ?_⟩, fun s x => ⟨exec_ldVxDt x s, exec_ldDtVx x s, exec_ldStVx x s⟩⟩
  · exact selects_of_fieldNN_classF rfl fun _ => decodeClassF_of_fieldNN_07
  · exact selects_of_fieldNN_classF rfl fun _ => decodeClassF_of_fieldNN_15
  · exact selects_of_fieldNN_classF rfl fun _ => decodeClassF_of_fieldNN_18

end Sys2Proof.Machine
end

section
/-! The host's tick and key write (60_exceptions.md R312, R318): the timers after a tick, read as naturals, and each key
bit after a write. -/

namespace Sys2Proof.Machine

/-- The decrement floored at 0 is the truncated subtraction of the naturals. -/
theorem byte_floorDec_eq_ofNat (b : Byte) : (if b = 0 then 0 else b - 1) = BitVec.ofNat 8 (b.toNat - 1) := by
  split
  case isTrue h => simp [h]
  case isFalse h => bv_omega

section
variable (s : State)

@[simp] theorem State.tick_dt : s.tick.dt = BitVec.ofNat 8 (s.dt.toNat - 1) := byte_floorDec_eq_ofNat s.dt

@[simp] theorem State.tick_st : s.tick.st = BitVec.ofNat 8 (s.st.toNat - 1) := byte_floorDec_eq_ofNat s.st

theorem State.setKeys_keys_getElem (k : BitVec 16) (i : Fin 16) : (s.setKeys k).keys[i.val] = k.getLsbD i.val :=
  Vector.getElem_ofFn i.isLt

theorem hostOp_tick : hostOp .tick s = .next (s.tick, .nothing) := rfl

theorem hostOp_setKeys (k : BitVec 16) : hostOp (.setKeys k) s = .next (s.setKeys k, .nothing) := rfl

end

/-- Settles O51: by its frame `State.tick_frame` the tick writes the two timers alone, and each of them is the old one
less one, floored at 0. -/
theorem tickFloorsAtZero : Obligations.TickFloorsAtZero := by
  intro s
  rw [hostOp_tick, State.tick_frame, State.tick_dt, State.tick_st]

/-- Settles O52: the state is `State.setKeys`, which by its frame writes K alone, each bit from the same bit of `k`. -/
theorem setKeysWritesTheWholeRegister : Obligations.SetKeysWritesTheWholeRegister := fun s k =>
  ⟨s.setKeys k, hostOp_setKeys s k, s.setKeys_frame k, s.setKeys_keys_getElem k⟩

end Sys2Proof.Machine
end

section
/-! The round trip of the encoding (30_encoding.md R81, R88): the decoder reads every instruction back from its word. -/

namespace Sys2Proof

/-- An encoded word has its instruction's class and, where the class holds several instructions, its secondary field, so
the dispatch of R83 finds the instruction again. -/
theorem decode_encode (i : Instr) : decode (encode i) = .ok i := by
  cases i
  case cls | ret => simp [encode, Machine.decode_of_fieldClass_0, decodeClass0]
  case ldReg | or | and | xor | addReg | sub | shr | subn | shl =>
    simp [encode, Machine.decode_of_fieldClass_8, decodeClass8]
  case skp | sknp => simp [encode, decode, decodeClassE]
  case ldVxDt | ldDtVx | ldStVx | ldVxK | addIVx | ldFVx | ldBVx | ldMemVx | ldVxMem =>
    simp [encode, Machine.decode_of_fieldClass_F, decodeClassF]
  -- The other classes hold one instruction each.
  all_goals simp [encode, decode]

/-- Settles O1: the class and the secondary field of the encoded word lead the decoder back to the instruction. -/
theorem decodeOfEncodeIsTheInstruction : Obligations.DecodeOfEncodeIsTheInstruction :=
  fun i _ => decode_encode i

/-- Settles O2: an answer of the decoder agrees with the opcode map, ignored fields included (`decode_agrees`). -/
theorem encodeOfDecodeIsTheWord : Obligations.EncodeOfDecodeIsTheWord :=
  fun _ _ => encode_of_decode

/-- Settles O5: thirteen fixed words, each read by running the decoder. -/
theorem writtenOutWordsDecode : Obligations.WrittenOutWordsDecode := by
  unfold Obligations.WrittenOutWordsDecode
  decide

end Sys2Proof
end

section
/-! The conditions an instruction can raise (60_exceptions.md R301 to R306), and the frame of an instruction: what one
that raises nothing may change. `exec_cases` says once that an instruction does the one or the other. -/

namespace Sys2Proof.Machine

/-- The instruction raises the condition in the state, where PC has advanced already (R59, R121, R122, R145, R146). -/
inductive Raises (s : State) : Instr → Cause → Prop
  | call (nnn : Addr) (h : s.sp.val = 16) : Raises s (.call nnn) .stackOverflow
  | ret (x : Nibble) (h : s.sp.val = 0) : Raises s (.ret x) .stackUnderflow
  | skp (x : Nibble) (h : (s.getV x).toNat > 0xF) : Raises s (.skp x) .keyRange
  | sknp (x : Nibble) (h : (s.getV x).toNat > 0xF) : Raises s (.sknp x) .keyRange
  | ldBVx (x : Nibble) (h : 4096 ≤ s.dataAddr 2) : Raises s (.ldBVx x) .memRange
  | ldMemVx (x : Nibble) (h : 4096 ≤ s.dataAddr x.toNat) : Raises s (.ldMemVx x) .memRange
  | ldVxMem (x : Nibble) (h : 4096 ≤ s.dataAddr x.toNat) : Raises s (.ldVxMem x) .memRange
  | drw (x y n : Nibble) (hn : n ≠ 0) (h : 4096 < s.dataAddr n.toNat) : Raises s (.drw x y n) .memRange

/-- What the instruction may change when it raises no condition: `t` is `s` but for the fields named. -/
def Frame : Instr → State → State → Prop
  | .cls _, s, t => t = { s with fb := t.fb }
  | .ret _, s, t => t = { s with sp := t.sp, pc := t.pc }
  | .call _, s, t => t = { s with sp := t.sp, stack := t.stack, pc := t.pc }
  | .jp _, s, t | .seImm _ _, s, t | .sneImm _ _, s, t | .seReg _ _ _, s, t | .sneReg _ _ _, s, t
  | .skp _, s, t | .sknp _, s, t => t = { s with pc := t.pc }
  | .ldImm _ _, s, t | .addImm _ _, s, t | .ldReg _ _, s, t | .or _ _, s, t | .and _ _, s, t | .xor _ _, s, t
  | .addReg _ _, s, t | .sub _ _, s, t | .shr _ _, s, t | .subn _ _, s, t | .shl _ _, s, t
  | .ldVxDt _, s, t => t = { s with v := t.v }
  | .rnd _ _, s, t => t = { s with v := t.v, draws := t.draws }
  | .drw _ _ _, s, t => t = { s with v := t.v, fb := t.fb }
  | .ldI _, s, t | .addIVx _, s, t | .ldFVx _, s, t => t = { s with idx := t.idx }
  | .ldDtVx _, s, t => t = { s with dt := t.dt }
  | .ldStVx _, s, t => t = { s with st := t.st }
  | .ldVxK _, s, t => t = { s with v := t.v, pc := t.pc }
  | .ldBVx _, s, t => t = { s with mem := t.mem }
  | .ldMemVx _, s, t => t = { s with mem := t.mem, idx := t.idx }
  | .ldVxMem _, s, t => t = { s with v := t.v, idx := t.idx }

section
variable {i : Instr} {s t : State} {c : Cause}

/-! ### Raising -/

theorem Raises.halts (h : Raises s i c) : c.halts = true := by
  cases h <;> rfl

theorem State.raiseFrom_eq_haltedBy (s : State) (i : Instr) (h : c.halts = true) :
    s.raiseFrom c i = s.haltedBy c i := by
  simp [State.raiseFrom_eq, State.haltedBy, h]

theorem exec_eq_raiseFrom (h : Raises s i c) : exec i s = .next (s.raiseFrom c i) := by
  cases h with
  | call nnn h => exact congrArg _ (dif_pos h)
  | ret x h => exact congrArg _ (dif_pos h)
  | skp x h => exact congrArg _ (if_pos h)
  | sknp x h => exact congrArg _ (if_pos h)
  | ldBVx x h => exact congrArg _ (s.checkRange_neg h _ _)
  | ldMemVx x h => exact congrArg _ (s.checkRange_neg h _ _)
  | ldVxMem x h => exact congrArg _ (s.checkRange_neg h _ _)
  | drw x y n hn h =>
    rcases execDrw_cases s x y n with ⟨hin, -⟩ | ⟨-, e⟩
    · exact absurd hin (not_or.mpr ⟨Nat.not_le.mpr h, hn⟩)
    · exact e

/-- Raising halts, and leaves everything but the halt status and the report. -/
theorem exec_eq_haltedBy (h : Raises s i c) : exec i s = .next (s.haltedBy c i) := by
  rw [exec_eq_raiseFrom h, s.raiseFrom_eq_haltedBy i h.halts]

/-! ### Completing -/

theorem frame_refl (i : Instr) (s : State) : Frame i s s := by
  cases i <;> rfl

/-- No frame names the halt status or the report. -/
theorem Frame.haltStatus (h : Frame i s t) :
    t.halted = s.halted ∧ t.haltCause = s.haltCause ∧ t.report = s.report := by
  cases i <;> exact ⟨(congrArg State.halted h :), (congrArg State.haltCause h :), (congrArg State.report h :)⟩

/-- Every way an instruction can end: its condition, or its frame. -/
theorem exec_cases (h : exec i s = .next t) :
    (∃ c, Raises s i c ∧ t = s.haltedBy c i) ∨ Frame i s t := by
  cases i
  case ret x =>
    rcases execRet_cases s x with ⟨_, e⟩ | ⟨hc, e⟩ <;> cases e.symm.trans h
    · exact .inr rfl
    · exact .inl ⟨_, .ret x hc, s.raiseFrom_eq_haltedBy _ rfl⟩
  case call nnn =>
    rcases execCall_cases s nnn with ⟨_, e⟩ | ⟨hc, e⟩ <;> cases e.symm.trans h
    · exact .inr rfl
    · exact .inl ⟨_, .call nnn hc, s.raiseFrom_eq_haltedBy _ rfl⟩
  case skp x =>
    rcases execSkp_cases s x with ⟨-, e⟩ | ⟨hc, e⟩ <;> cases e.symm.trans h
    · exact .inr rfl
    · exact .inl ⟨_, .skp x hc, s.raiseFrom_eq_haltedBy _ rfl⟩
  case sknp x =>
    rcases execSknp_cases s x with ⟨-, e⟩ | ⟨hc, e⟩ <;> cases e.symm.trans h
    · exact .inr rfl
    · exact .inl ⟨_, .sknp x hc, s.raiseFrom_eq_haltedBy _ rfl⟩
  case drw x y n =>
    rcases execDrw_cases s x y n with ⟨-, e⟩ | ⟨⟨hn, hc⟩, e⟩ <;> cases e.symm.trans h
    · exact .inr (s.drawSprite_frame _ _ _)
    · exact .inl ⟨_, .drw x y n hn hc, s.raiseFrom_eq_haltedBy _ rfl⟩
  case ldBVx x =>
    rcases execLdBVx_cases s x with ⟨-, e⟩ | ⟨hc, e⟩ <;> cases e.symm.trans h
    · exact .inr rfl
    · exact .inl ⟨_, .ldBVx x hc, s.raiseFrom_eq_haltedBy _ rfl⟩
  case ldMemVx x =>
    rcases execLdMemVx_cases s x with ⟨-, e⟩ | ⟨hc, e⟩ <;> cases e.symm.trans h
    · exact .inr rfl
    · exact .inl ⟨_, .ldMemVx x hc, s.raiseFrom_eq_haltedBy _ rfl⟩
  case ldVxMem x =>
    rcases execLdVxMem_cases s x with ⟨-, e⟩ | ⟨hc, e⟩ <;> cases e.symm.trans h
    · exact .inr (congrArg (State.setIdx · (s.idxPast x)) (s.loadRegs_frame _ _))
    · exact .inl ⟨_, .ldVxMem x hc, s.raiseFrom_eq_haltedBy _ rfl⟩
  all_goals right
  case seImm | sneImm | seReg | sneReg => cases h; rw [State.skipIf_eq]; rfl
  case ldVxK => cases h; split <;> rfl
  -- The others are a chain of writes to the fields of their frame.
  all_goals cases h; rfl

theorem frame_of_exec (h : exec i s = .next t) (hno : ∀ c, ¬ Raises s i c) : Frame i s t :=
  (exec_cases h).resolve_left fun ⟨c, hc, _⟩ => hno c hc

/-- The frame, with the halt status and the report besides, holds in whatever way the instruction ends. -/
theorem frame_of_exec_upto_halt (h : exec i s = .next t) :
    Frame i { s with halted := t.halted, haltCause := t.haltCause, report := t.report } t := by
  rcases exec_cases h with ⟨c, -, rfl⟩ | hf
  · exact frame_refl i _
  · obtain ⟨h1, h2, h3⟩ := hf.haltStatus
    rw [h1, h2, h3]
    exact hf

theorem exists_exec_eq_next (i : Instr) (s : State) : ∃ t, exec i s = .next t := by
  cases i <;> exact ⟨_, rfl⟩

end

/-- Settles O26: the eight clauses are the constructors of `Raises`. -/
theorem instructionsHaltOnTheirConditions : Obligations.InstructionsHaltOnTheirConditions := by
  refine fun s x y n nnn => ⟨fun h => exec_eq_haltedBy (.call nnn h), fun h => exec_eq_haltedBy (.ret x h),
    fun h => exec_eq_haltedBy (.skp x h), fun h => exec_eq_haltedBy (.sknp x h), fun h => exec_eq_haltedBy (.ldBVx x h),
    fun h => exec_eq_haltedBy (.ldMemVx x h), fun h => exec_eq_haltedBy (.ldVxMem x h),
    fun hn h => exec_eq_haltedBy (.drw x y n hn ?_)⟩
  rw [State.dataAddr]
  omega

end Sys2Proof.Machine
end

section
/-! Who writes memory (20_memory.md R56): the two stores, each one run of bytes from I up. -/

namespace Sys2Proof.Machine

/-- The bytes that the instruction stores from I up (R203, R205). -/
def State.storedBytes (s : State) : Instr → List Byte
  | .ldBVx x => decimalDigits (s.getV x)
  | .ldMemVx x => s.regsUpTo x
  | _ => []

section
variable {i : Instr} {s t : State}

/-- Memory is left as it was, or the run is written where every one of its addresses exists. -/
theorem mem_of_exec (h : exec i s = .next t) :
    t.mem = s.mem ∨ (s.dataAddr (s.storedBytes i).length ≤ 4096 ∧
      t.mem = s.mem.writeBytes (s.dataAddr 0) (s.storedBytes i)) := by
  cases i
  case ldBVx x =>
    rcases execLdBVx_cases s x with ⟨hr, e⟩ | ⟨-, e⟩ <;> cases e.symm.trans h
    · exact .inr ⟨hr, rfl⟩
    · exact .inl (by rw [State.raiseFrom_eq])
  case ldMemVx x =>
    rcases execLdMemVx_cases s x with ⟨hr, e⟩ | ⟨-, e⟩ <;> cases e.symm.trans h
    · exact .inr ⟨(s.length_regsUpTo x).symm ▸ hr, rfl⟩
    · exact .inl (by rw [State.raiseFrom_eq])
  all_goals
    rcases exec_cases h with ⟨c, -, rfl⟩ | hf
    · exact .inl rfl
    · exact .inl (congrArg State.mem hf :)

theorem mem_wf_of_exec (hmem : Memory.wf s.mem) (h : exec i s = .next t) : Memory.wf t.mem := by
  rcases mem_of_exec h with e | ⟨hr, e⟩ <;> rw [e]
  · exact hmem
  · exact Memory.writeBytes_wf hmem hr

/-- Outside the run every address reads as before. -/
theorem read_of_exec (hmem : Memory.wf s.mem) (h : exec i s = .next t) {a : Nat}
    (ha : a < s.dataAddr 0 ∨ s.dataAddr (s.storedBytes i).length ≤ a) : t.mem.read a = s.mem.read a := by
  rcases mem_of_exec h with e | ⟨hr, e⟩ <;> rw [e]
  refine (Memory.read_writeBytes hmem hr a).trans (if_neg fun hin => ?_)
  rcases ha with ha | ha
  · exact Nat.not_le.mpr ha hin.1
  · exact Nat.not_lt.mpr ha hin.2

end

/-- Settles O21: a byte that changed lies in the run of `State.storedBytes`, which is three bytes for Fx33, x + 1 for
Fx55 and empty for every other instruction. -/
theorem onlyTheTwoStoresWriteMemory : Obligations.OnlyTheTwoStoresWriteMemory := by
  intro i s t a hmem h hne
  have hin : s.dataAddr 0 ≤ a ∧ a < s.dataAddr (s.storedBytes i).length := by
    by_contra hout
    exact hne (read_of_exec hmem h (by omega))
  cases i
  case ldBVx x => exact .inl ⟨x, rfl, hin.1, Nat.le_of_lt_succ hin.2⟩
  case ldMemVx x =>
    rw [State.storedBytes, State.length_regsUpTo] at hin
    exact .inr ⟨x, rfl, hin.1, Nat.le_of_lt_succ hin.2⟩
  all_goals exact absurd hin.1 (Nat.not_le.mpr hin.2)

end Sys2Proof.Machine
end

section
/-! Who writes the stack, I and the framebuffer (10_state.md R23, R26, R27; 45_display.md R231). -/

namespace Sys2Proof.Machine

section
variable {i : Instr} {s t : State}

/-- The stack is left as it was, pushed by CALL, or popped by RET. -/
theorem stack_of_exec (h : exec i s = .next t) :
    (t.sp = s.sp ∧ t.stack = s.stack) ∨
    (∃ (nnn : Addr) (hsp : s.sp.val < 16), i = .call nnn ∧ t = (s.pushPc hsp).setPc (addrOperand nnn)) ∨
    (∃ (x : Nibble) (hsp : 0 < s.sp.val), i = .ret x ∧ t = s.popPc hsp) := by
  cases i
  case call nnn =>
    rcases execCall_cases s nnn with ⟨hsp, e⟩ | ⟨-, e⟩ <;> cases e.symm.trans h
    · exact .inr (.inl ⟨nnn, hsp, rfl, rfl⟩)
    · exact .inl (by rw [State.raiseFrom_eq]; exact ⟨rfl, rfl⟩)
  case ret x =>
    rcases execRet_cases s x with ⟨hsp, e⟩ | ⟨-, e⟩ <;> cases e.symm.trans h
    · exact .inr (.inr ⟨x, hsp, rfl, rfl⟩)
    · exact .inl (by rw [State.raiseFrom_eq]; exact ⟨rfl, rfl⟩)
  all_goals
    rcases exec_cases h with ⟨c, -, rfl⟩ | hf
    · exact .inl ⟨rfl, rfl⟩
    · exact .inl ⟨(congrArg State.sp hf :), (congrArg State.stack hf :)⟩

/-- The framebuffer is left as it was, cleared, or drawn on. -/
theorem fb_of_exec (h : exec i s = .next t) :
    t.fb = s.fb ∨ (∃ x, i = .cls x ∧ t = s.clearFb) ∨
    (∃ x y n, i = .drw x y n ∧ t = s.drawSprite (s.getV x).toNat (s.getV y).toNat (s.spriteRows n)) := by
  cases i
  case cls x => cases h; exact .inr (.inl ⟨x, rfl, rfl⟩)
  case drw x y n =>
    rcases execDrw_cases s x y n with ⟨-, e⟩ | ⟨-, e⟩ <;> cases e.symm.trans h
    · exact .inr (.inr ⟨x, y, n, rfl, rfl⟩)
    · exact .inl (by rw [State.raiseFrom_eq])
  all_goals
    rcases exec_cases h with ⟨c, -, rfl⟩ | hf
    · exact .inl rfl
    · exact .inl (congrArg State.fb hf :)

end

/-- Settles O18: `State.pushPc` writes the entry at the old SP alone, and `State.popPc` none. -/
theorem onlyCallAndReturnMoveTheStack : Obligations.OnlyCallAndReturnMoveTheStack := by
  intro i s t h
  rcases stack_of_exec h with hkept | ⟨nnn, hsp, rfl, rfl⟩ | ⟨x, hsp, rfl, rfl⟩
  · exact .inl hkept
  · refine .inr (.inl ⟨nnn, rfl, rfl, fun k hk => ?_⟩)
    exact (s.pushPc_stack hsp k).trans (if_neg (Ne.symm hk))
  · exact .inr (.inr ⟨x, rfl, Nat.sub_add_cancel hsp, rfl⟩)

/-- Settles O19: no frame but those of the five names I. -/
theorem onlyFiveInstructionsWriteI : Obligations.OnlyFiveInstructionsWriteI := by
  intro i s t h hne
  rcases exec_cases h with ⟨c, -, rfl⟩ | hf
  · exact absurd rfl hne
  · cases i
    case ldI nnn => exact .inl ⟨nnn, rfl⟩
    case addIVx x => exact .inr ⟨x, .inl rfl⟩
    case ldFVx x => exact .inr ⟨x, .inr (.inl rfl)⟩
    case ldMemVx x => exact .inr ⟨x, .inr (.inr (.inl rfl))⟩
    case ldVxMem x => exact .inr ⟨x, .inr (.inr (.inr rfl))⟩
    all_goals exact absurd (congrArg State.idx hf :) hne

/-- Settles O20: clearing writes the framebuffer alone, so VF stays. -/
theorem onlyClearAndDrawWriteTheFramebuffer : Obligations.OnlyClearAndDrawWriteTheFramebuffer := by
  intro i s t h hne
  rcases fb_of_exec h with e | ⟨x, rfl, rfl⟩ | ⟨x, y, n, rfl, -⟩
  · exact absurd e hne
  · exact .inr ⟨⟨x, rfl⟩, rfl⟩
  · exact .inl ⟨x, y, n, rfl⟩

end Sys2Proof.Machine
end

section
/-! Who writes a register (10_state.md R20 to R22): the destination that the word names, and VF for the flag group and
Dxyn. -/

namespace Sys2Proof.Machine

/-- The registers the instruction may write. -/
def WritesV : Instr → Nibble → Prop
  | .ldImm x _, r | .addImm x _, r | .ldReg x _, r | .or x _, r | .and x _, r | .xor x _, r | .rnd x _, r
  | .ldVxDt x, r | .ldVxK x, r => r = x
  | .addReg x _, r | .sub x _, r | .shr x _, r | .subn x _, r | .shl x _, r => r = x ∨ r = vF
  | .drw _ _ _, r => r = vF
  | .ldVxMem x, r => r.toNat ≤ x.toNat
  | _, _ => False

section
variable {i : Instr} {s t : State} {x r : Nibble}

theorem State.getV_flagThenValue_ne (s : State) (h : ¬ (r = x ∨ r = vF)) (f : Byte) (value : State → Byte) :
    (s.flagThenValue x f value).getV r = s.getV r := by
  rw [State.getV_flagThenValue, if_neg fun e => h (.inl e.symm), if_neg fun e => h (.inr e.symm)]

/-- A run of x + 1 bytes loads no register above V[x]. -/
theorem State.getV_loadRegs_above (s : State) (h : x.toNat < r.toNat) (base : Nat) :
    (s.loadRegs 0 (s.mem.readBytes base (x.toNat + 1))).getV r = s.getV r := by
  rw [State.getV_loadRegs _ _ _ (by rw [Memory.length_readBytes]; omega), Memory.length_readBytes, if_neg (by omega)]

theorem getV_of_exec (h : exec i s = .next t) (hr : ¬ WritesV i r) : t.getV r = s.getV r := by
  cases i
  case ldImm | addImm | ldReg | or | and | xor | rnd | ldVxDt => cases h; exact s.getV_setV_ne (Ne.symm hr) _
  case ldVxK =>
    cases h
    split
    · rfl
    · exact s.getV_setV_ne (Ne.symm hr) _
  case addReg | sub | shr | subn | shl => cases h; exact s.getV_flagThenValue_ne hr _ _
  case drw x y n =>
    rcases execDrw_cases s x y n with ⟨-, e⟩ | ⟨-, e⟩ <;> cases e.symm.trans h
    · exact s.getV_drawSprite_ne _ _ _ hr
    · rw [State.raiseFrom_eq]; rfl
  case ldVxMem x =>
    rcases execLdVxMem_cases s x with ⟨-, e⟩ | ⟨-, e⟩ <;> cases e.symm.trans h
    · exact s.getV_loadRegs_above (Nat.not_le.mp hr) _
    · rw [State.raiseFrom_eq]; rfl
  all_goals
    rcases exec_cases h with ⟨c, -, rfl⟩ | hf
    · rfl
    · exact (congrArg (State.getV · r) hf :)

end

/-- Settles O17: what may write VF is the flag group, Dxyn, or an instruction whose named destination is 0xF. -/
theorem onlyTheFlagGroupWritesVFUnnamed : Obligations.OnlyTheFlagGroupWritesVFUnnamed := by
  intro i s t h hne
  have hw : WritesV i 0xF := by
    by_contra hno
    exact hne (getV_of_exec h hno)
  cases i
  case addReg x y | sub x y | shr x y | subn x y | shl x y => exact .inl ⟨x, y, 0, by simp⟩
  case drw x y n => exact .inl ⟨x, y, n, by simp⟩
  case ldImm x nn | addImm x nn | rnd x nn => cases hw; exact .inr ⟨0, nn, by simp⟩
  case ldReg x y | or x y | and x y | xor x y => cases hw; exact .inr ⟨y, 0, by simp⟩
  case ldVxDt x | ldVxK x => cases hw; exact .inr ⟨0, 0, by simp⟩
  case ldVxMem x =>
    have hx : x = 0xF := BitVec.eq_of_toNat_eq (Nat.le_antisymm (Nat.le_of_lt_succ x.isLt) hw)
    exact .inr ⟨0, 0, by simp [hx]⟩
  all_goals exact hw.elim

end Sys2Proof.Machine
end

section
/-! The frames (R21 to R23, R56, R208, R231): `Frame` with the registers of `WritesV` and the bytes of
`State.storedBytes` left out. -/

namespace Sys2Proof.Machine

/-- A frame that leaves memory leaves every byte of it. -/
theorem frame_and_read {s t u : State} (h : t = u) (hmem : u.mem = s.mem) :
    t = u ∧ ∀ a, t.mem.read a = s.mem.read a :=
  ⟨h, fun a => congrArg (Memory.read · a) ((congrArg State.mem h).trans hmem)⟩

/-- Settles O48: the frames of the register instructions, each with the registers it may write. -/
theorem registerInstructionsFrame : Obligations.RegisterInstructionsFrame := by
  intro s t i x y nn h
  refine ⟨fun hi => ?_, fun hi => ?_, fun hi => ?_⟩
  · have hframe : t = { s with v := t.v } := by
      rcases hi with rfl | rfl | rfl | rfl | rfl | rfl | rfl <;> exact frame_of_exec h nofun
    refine ⟨?_, (frame_and_read hframe rfl).symm⟩
    rcases hi with rfl | rfl | rfl | rfl | rfl | rfl | rfl <;> exact fun r => getV_of_exec h
  · have hframe : t = { s with v := t.v } := by
      rcases hi with rfl | rfl | rfl | rfl | rfl <;> exact frame_of_exec h nofun
    refine ⟨fun r hx hF => ?_, (frame_and_read hframe rfl).symm⟩
    rcases hi with rfl | rfl | rfl | rfl | rfl <;> exact getV_of_exec h (not_or.mpr ⟨hx, hF⟩)
  · subst hi
    refine ⟨fun r => getV_of_exec h, ?_⟩
    cases h
    exact ⟨fun _ => rfl, rfl⟩

/-- Settles O49: the frames of the instructions that write PC, the stack, I or a timer, and of the key wait; with the
halt status and the report where the instruction can raise a condition. -/
theorem controlIndexAndTimerFrame : Obligations.ControlIndexAndTimerFrame := by
  intro s t i x y n nn nnn h
  refine ⟨?_, ?_, ?_, ?_, ?_, ?_, ?_⟩
  · rintro (rfl | rfl | rfl | rfl | rfl) <;> exact frame_and_read (frame_of_exec h nofun) rfl
  · rintro (rfl | rfl) <;> exact frame_and_read (frame_of_exec_upto_halt h) rfl
  · rintro (rfl | rfl)
    · exact frame_and_read (frame_of_exec_upto_halt h) rfl
    · have hframe := frame_of_exec_upto_halt h
      have hstack : t.stack = s.stack := (congrArg State.stack hframe :)
      rw [hstack]
      exact frame_and_read hframe rfl
  · rintro (rfl | rfl | rfl) <;> exact frame_and_read (frame_of_exec h nofun) rfl
  · rintro rfl
    exact frame_and_read (frame_of_exec h nofun) rfl
  · rintro rfl
    exact frame_and_read (frame_of_exec h nofun) rfl
  · rintro rfl
    obtain ⟨hframe, hread⟩ := frame_and_read (frame_of_exec h nofun) rfl
    exact ⟨hframe, fun r => getV_of_exec h, hread⟩

/-- Settles O50: the frames of the instructions that reach memory or the framebuffer; what the two stores leave of
memory is what lies outside their run. -/
theorem memoryAndDisplayFrame : Obligations.MemoryAndDisplayFrame := by
  intro s t i x y n hmem h
  refine ⟨?_, ?_, ?_, ?_, ?_⟩
  · rintro rfl
    exact ⟨frame_of_exec_upto_halt h, fun a ha => read_of_exec hmem h ha⟩
  · rintro rfl
    refine ⟨frame_of_exec_upto_halt h, fun a ha => read_of_exec hmem h ?_⟩
    rw [State.storedBytes, State.length_regsUpTo]
    exact ha
  · rintro rfl
    obtain ⟨hframe, hread⟩ := frame_and_read (frame_of_exec_upto_halt h) rfl
    exact ⟨hframe, fun r hr => getV_of_exec h (Nat.not_le.mpr hr), hread⟩
  · rintro rfl
    obtain ⟨hframe, hread⟩ := frame_and_read (frame_of_exec_upto_halt h) rfl
    exact ⟨hframe, fun r => getV_of_exec h, hread⟩
  · rintro rfl
    exact frame_and_read (frame_of_exec h nofun) rfl

end Sys2Proof.Machine
end

section
/-! The step where no instruction runs, and what a step can raise (40_step.md R100, R106; 60_exceptions.md R302 to
R306). -/

namespace Sys2Proof.Machine

section
variable {s : State}

theorem step_of_halted (h : s.halted = true) : step s = .next s.clearReport :=
  if_pos h

theorem step_of_not_fetchable (hrun : s.halted = false) (hpc : 4096 ≤ s.pc.toNat + 1) :
    step s = .next s.fetchFails := by
  simp only [step, cycle, hrun, s.not_fetchable_iff.mpr hpc, Bool.false_eq_true, if_false]

end

/-- Settles O9: the step of a running block without a fetchable word is `State.fetchFails`. -/
theorem fetchOutOfRangeHalts : Obligations.FetchOutOfRangeHalts := by
  intro s hrun hpc
  rw [step_of_not_fetchable hrun hpc, State.fetchFails_eq]

/-- Settles O11: the step of a halted block only clears the report. -/
theorem haltedStepDoesNothing : Obligations.HaltedStepDoesNothing :=
  fun _ => step_of_halted

/-- Settles O12: each of the branches of the step answers a next state, since every instruction does. -/
theorem stepAlwaysCompletes : Obligations.StepAlwaysCompletes := by
  intro s
  unfold step cycle runWord
  split
  · exact ⟨_, rfl⟩
  · split
    · split
      · exact exists_exec_eq_next _ _
      · exact ⟨_, rfl⟩
    · exact ⟨_, rfl⟩

/-- Settles O14: a step that halts is FETCH_RANGE or an instruction's condition, since a frame keeps the halt status. -/
theorem haltingIsPrecise : Obligations.HaltingIsPrecise := by
  intro s t hrun hstep hhalt
  rcases step_cases hstep with ⟨hh, -⟩ | ⟨-, -, rfl⟩ | ⟨-, -, -, rfl⟩ | ⟨-, -, i, -, hexec⟩
  · cases hrun.symm.trans hh
  · exact ⟨rfl, rfl, _, rfl, rfl⟩
  · cases hrun.symm.trans hhalt
  · rcases exec_cases hexec with ⟨c, hc, rfl⟩ | hf
    · have hne : c ≠ .fetchRange := by cases hc <;> exact nofun
      refine ⟨?_, hc.halts, _, rfl, rfl⟩
      rw [State.haltedBy, if_neg hne]
      rfl
    · obtain ⟨hkept, -, -⟩ := hf.haltStatus
      cases hrun.symm.trans (hkept.symm.trans hhalt)

/-- Settles O15: a report comes from FETCH_RANGE, from an unknown word, or from an instruction that raises; the last are
the constructors of `Raises`, on the state in which PC has advanced by 2. -/
theorem reportNamesTheConditionRaised : Obligations.ReportNamesTheConditionRaised := by
  intro s t r hrun hstep hreport
  rcases step_cases hstep with ⟨hh, -⟩ | ⟨-, hfetch, rfl⟩ | ⟨-, hfetch, hunknown, rfl⟩ | ⟨-, hfetch, i, hi, hexec⟩
  · cases hrun.symm.trans hh
  · cases hreport
    simp [hfetch]
  · cases hreport
    simp [hfetch, hunknown]
  · rcases exec_cases hexec with ⟨c, hc, rfl⟩ | hf
    · cases hreport
      have hpc : s.beginInstr.pc - 2 = s.pc := BitVec.add_sub_cancel s.pc 2
      have hword : encode i = s.fetchWord := encode_of_decode hi
      refine ⟨hpc, by simp [hfetch, hword], ?_⟩
      -- A constructor of `Raises` has what the clause on its own cause asks for; the other clauses name other causes.
      cases hc <;> simp_all [State.beginInstr_eq]
    · obtain ⟨-, -, hkept⟩ := hf.haltStatus
      cases hkept.symm.trans hreport

end Sys2Proof.Machine
end

section
/-! The invariant (20_memory.md R50, 10_state.md R32, R36): each of its three parts is kept by every instruction, so by
every step, by every other operation of the host, and by every run. -/

namespace Sys2Proof.Machine

section
variable {i : Instr} {s t : State}

/-- XOR with 1 keeps a pixel 0 or 1. -/
theorem binary_xor_one {b : Byte} (h : b = 0 ∨ b = 1) : b ^^^ 1 = 0 ∨ b ^^^ 1 = 1 := by
  rcases h with rfl | rfl <;> decide

theorem State.fbBinary_of_fb_eq (hfb : s.fbBinary) (h : t.fb = s.fb) : t.fbBinary := by
  intro p
  rw [State.pixel, h]
  exact hfb p

theorem State.drawSprite_fbBinary (hfb : s.fbBinary) {X Y : Nat} {rows : List Byte}
    (h : (spriteCells X Y rows).Nodup) : (s.drawSprite X Y rows).fbBinary := by
  intro p
  rw [State.pixel_drawSprite s h]
  split
  · exact binary_xor_one (hfb p)
  · exact hfb p

theorem fbBinary_of_exec (hfb : s.fbBinary) (h : exec i s = .next t) : t.fbBinary := by
  rcases fb_of_exec h with e | ⟨x, rfl, rfl⟩ | ⟨x, y, n, rfl, rfl⟩
  · exact State.fbBinary_of_fb_eq hfb e
  · exact fun p => .inl (s.pixel_clearFb p)
  · exact State.drawSprite_fbBinary hfb (s.nodup_spriteCells_spriteRows _ _ n)

theorem haltConsistent_of_exec (hhalt : s.haltConsistent) (h : exec i s = .next t) : t.haltConsistent := by
  rcases exec_cases h with ⟨c, hc, rfl⟩ | hf
  · exact ⟨nofun, fun _ => hc.halts⟩
  · obtain ⟨hh, hcause, -⟩ := hf.haltStatus
    rw [State.haltConsistent, hh, hcause]
    exact hhalt

theorem inv_of_exec (hs : s.Inv) (h : exec i s = .next t) : t.Inv := by
  obtain ⟨hmem, hfb, hhalt⟩ := hs
  exact ⟨mem_wf_of_exec hmem h, fbBinary_of_exec hfb h, haltConsistent_of_exec hhalt h⟩

theorem inv_of_step (hs : s.Inv) (h : step s = .next t) : t.Inv := by
  obtain ⟨hmem, hfb, hhalt⟩ := hs
  rcases step_cases h with ⟨-, rfl⟩ | ⟨-, -, rfl⟩ | ⟨-, -, -, rfl⟩ | ⟨-, -, i, -, hexec⟩
  · exact ⟨hmem, hfb, hhalt⟩
  · exact ⟨hmem, hfb, nofun, fun _ => rfl⟩
  · exact ⟨hmem, hfb, hhalt⟩
  · have hbegin : s.beginInstr.Inv := ⟨hmem, hfb, hhalt⟩
    exact inv_of_exec hbegin hexec

theorem State.reset_inv : State.reset.Inv :=
  ⟨State.reset_mem_wf, fun p => .inl (by simp [State.pixel, State.reset]), fun _ => rfl, nofun⟩

theorem State.setK_inv (hs : s.Inv) (k : Vector Bool 16) : (s.setK k).Inv := hs

/-- The host's other operations: a reset leaves the reset state, a load writes memory, and the rest write no field of
the invariant. -/
theorem inv_of_hostOp {o : HostOp} {r : Reply} (hs : s.Inv) (h : hostOp o s = .next (t, r)) : t.Inv := by
  obtain ⟨hmem, hfb, hhalt⟩ := hs
  rcases hostOp_cases h with ⟨-, hstep⟩ | rfl | ⟨image, rfl⟩ | ⟨k, rfl⟩ | rfl | rfl
  · exact inv_of_step ⟨hmem, hfb, hhalt⟩ hstep
  · exact State.reset_inv
  · refine ⟨s.load_wf image hmem, ?_⟩
    rw [State.load_frame]
    exact ⟨hfb, hhalt⟩
  · exact State.setK_inv ⟨hmem, hfb, hhalt⟩ _
  · exact ⟨hmem, hfb, hhalt⟩
  · exact ⟨hmem, hfb, hhalt⟩

/-- A run that answers has a first operation that does and a rest that does. -/
theorem hostRun_cons {o : HostOp} {ops : List HostOp} {rs : List Reply} (h : hostRun (o :: ops) s = .next (t, rs)) :
    ∃ u r rs', hostOp o s = .next (u, r) ∧ hostRun ops u = .next (t, rs') := by
  rw [hostRun] at h
  split at h
  · rename_i u r ho
    split at h
    · rename_i t' rs' hrun
      cases h
      exact ⟨u, r, rs', ho, hrun⟩
    · cases h
    · cases h
  · cases h
  · cases h

end

/-- Settles O56: of the ways a step can end only the run of an instruction touches memory or pixels (`inv_of_exec`), and the
others change the halt status consistently if at all. -/
theorem stepKeepsTheInvariant : Obligations.StepKeepsTheInvariant :=
  fun _ _ => inv_of_step

/-- Settles O57, by induction on the list of operations: each of them keeps the invariant. -/
theorem hostRunsKeepTheInvariant : Obligations.HostRunsKeepTheInvariant := by
  intro ops
  induction ops with
  | nil =>
    intro s t rs hs h
    cases h
    exact hs
  | cons o ops ih =>
    intro s t rs hs h
    obtain ⟨u, r, rs', hop, hrun⟩ := hostRun_cons h
    exact ih u t rs' (inv_of_hostOp hs hop) hrun

/-- Settles O58: reset's memory lists nothing, its cells and its stack entries are 0, it runs, and PC is 0x200. -/
theorem resetMeetsTheInvariants : Obligations.ResetMeetsTheInvariants :=
  ⟨State.reset_inv, by decide, fun k => by simp [State.reset]⟩

end Sys2Proof.Machine
end

section
/-! The bound on PC (41_control_flow.md R122; 42_skips.md R147): the instruction runs with PC at most 0x1000, from where
nothing goes further than one skip. -/

namespace Sys2Proof.Machine

section
variable {i : Instr} {s t : State}

theorem toNat_skip_le {w : Word} (h : w.toNat ≤ 0x1000) (c : Prop) [Decidable c] :
    (if c then w + 2 else w).toNat ≤ 0x1002 := by
  split <;> bv_omega

theorem toNat_addrOperand_le (nnn : Addr) : (addrOperand nnn).toNat ≤ 0x1002 := by
  rw [addrOperand]
  bv_omega

theorem State.skipIf_pc_le (hpc : s.pc.toNat ≤ 0x1000) (c : Bool) : (s.skipIf c).pc.toNat ≤ 0x1002 := by
  rw [State.skipIf_eq]
  exact toNat_skip_le hpc _

theorem State.skipOnKey_pc_le (hpc : s.pc.toNat ≤ 0x1000) (x : Nibble) (i : Instr) (down : Bool) :
    (s.skipOnKey x i down).pc.toNat ≤ 0x1002 := by
  rcases s.skipOnKey_cases x i down with ⟨-, e⟩ | ⟨-, e⟩ <;> rw [e]
  · rw [State.raiseFrom_eq]
    exact Nat.le_trans hpc (by decide)
  · exact toNat_skip_le hpc _

/-- PC after an instruction that began with PC from 2 to 0x1000: the key wait goes back by 2, a skip goes on by 2, a
jump or a call goes to an address below 0x1000, and a return to a saved one. -/
theorem pc_le_of_exec (hlow : 2 ≤ s.pc.toNat) (hpc : s.pc.toNat ≤ 0x1000)
    (hstack : ∀ k : Fin 16, (s.stack[k.val]).toNat ≤ 0x1000) (h : exec i s = .next t) : t.pc.toNat ≤ 0x1002 := by
  have hkept : s.pc.toNat ≤ 0x1002 := by omega
  cases i
  case jp nnn => cases h; exact toNat_addrOperand_le nnn
  case call nnn =>
    rcases execCall_cases s nnn with ⟨_, e⟩ | ⟨-, e⟩ <;> cases e.symm.trans h
    · exact toNat_addrOperand_le nnn
    · rw [State.raiseFrom_eq]; exact hkept
  case ret x =>
    rcases execRet_cases s x with ⟨hsp, e⟩ | ⟨-, e⟩ <;> cases e.symm.trans h
    · exact Nat.le_trans (hstack ⟨s.sp.val - 1, by omega⟩) (by decide)
    · rw [State.raiseFrom_eq]; exact hkept
  case seImm | sneImm | seReg | sneReg => cases h; exact State.skipIf_pc_le hpc _
  case skp | sknp => cases h; exact State.skipOnKey_pc_le hpc _ _ _
  case ldVxK =>
    cases h
    split
    · rw [State.setPc_pc]
      bv_omega
    · exact hkept
  all_goals
    rcases exec_cases h with ⟨c, -, rfl⟩ | hf
    · exact hkept
    · exact (congrArg State.pc hf :) ▸ hkept

/-- The entries after an instruction: only CALL writes one, and it writes the advanced PC. -/
theorem stack_le_of_exec (hpc : s.pc.toNat ≤ 0x1000) (hstack : ∀ k : Fin 16, (s.stack[k.val]).toNat ≤ 0x1000)
    (h : exec i s = .next t) (k : Fin 16) : (t.stack[k.val]).toNat ≤ 0x1000 := by
  rcases stack_of_exec h with ⟨-, e⟩ | ⟨nnn, hsp, -, rfl⟩ | ⟨x, hsp, -, rfl⟩
  · simp only [e, hstack k]
  · simp only [State.setPc_stack, s.pushPc_stack hsp k]
    split
    · exact hpc
    · exact hstack k
  · exact hstack k

end

/-- Settles O59: a fetch succeeds only below 0xFFF, so the instruction that runs begins with PC at most 0x1000. -/
theorem stepKeepsThePcBounded : Obligations.StepKeepsThePcBounded := by
  intro s t ⟨hpc, hstack⟩ h
  rcases step_cases h with ⟨-, rfl⟩ | ⟨-, -, rfl⟩ | ⟨-, hfetch, -, rfl⟩ | ⟨-, hfetch, i, -, hexec⟩
  · exact ⟨hpc, hstack⟩
  · exact ⟨hpc, hstack⟩
  all_goals
    have hlt : s.pc.toNat + 1 < 4096 := s.fetchable_iff.mp hfetch
    have hnext : s.beginInstr.pc.toNat = s.pc.toNat + 2 := by
      rw [State.beginInstr_eq]
      bv_omega
  · exact ⟨Nat.le_trans hnext.le (by omega), hstack⟩
  · have hpc' : s.beginInstr.pc.toNat ≤ 0x1000 := by omega
    exact ⟨pc_le_of_exec (by omega) hpc' hstack hexec, stack_le_of_exec hpc' hstack hexec⟩

end Sys2Proof.Machine
end

section
/-! The end of a run (70_reset_and_hazards.md R352): a halted or parked state is a fixed point of the step, up to the
report. -/

namespace Sys2Proof.Machine

section
variable {s : State}

/-- A jump to PC itself leaves PC where it was. -/
theorem step_of_parked (h : s.parked) : step s = .next s.clearReport := by
  obtain ⟨hrun, hfetch, nnn, hword, hpc⟩ := h
  have hdecode : decode s.fetchWord = .ok (.jp nnn) := by
    rw [hword]
    exact decode_encode (.jp nnn)
  have hback : s.beginInstr.setPc (addrOperand nnn) = s.clearReport := by
    rw [addrOperand, ← hpc]
    rfl
  rw [step_eq_runWord hrun (s.fetchable_iff.mp hfetch), runWord_of_decode_eq_ok hdecode, exec_jp, hback]

theorem step_of_ended (h : s.ended) : step s = .next s.clearReport :=
  h.elim step_of_halted step_of_parked

/-- A run of one step or more goes on from where the first step leads. -/
theorem run_succ {s t : State} (h : step s = .next t) (n : Nat) :
    Host.Core.run Sys2Proof.core (n + 1) s = Host.Core.run Sys2Proof.core n t := by
  have hstep : Sys2Proof.core.step s = .next t := h
  simp only [Host.Core.run, hstep]

/-- A state that a step leaves as it is stays as it is. -/
theorem run_of_step_eq_self (h : step s = .next s) (n : Nat) : Host.Core.run Sys2Proof.core n s = .next s := by
  induction n with
  | zero => rfl
  | succ n ih => rw [run_succ h, ih]

end

/-- Settles O60: the first step clears the report, and the state it leaves has ended too, so a step leaves it as it
is. -/
theorem endedRunsStayAsTheyAre : Obligations.EndedRunsStayAsTheyAre := by
  intro s n h
  have hended : s.clearReport.ended := h
  rw [run_succ (step_of_ended h), run_of_step_eq_self (step_of_ended hended), State.clearReport_eq]

end Sys2Proof.Machine
end

section
/-! CALL and RET where they complete (41_control_flow.md R121, R122, R125). -/

namespace Sys2Proof.Machine

theorem decode_of_fieldClass_2 {op : Word} (h : fieldClass op = 0x2) : decode op = .ok (.call (fieldNNN op)) := by
  simp [decode, h]

theorem decodeClass0_of_fieldNN_EE {op : Word} (h : fieldNN op = 0xEE) :
    decodeClass0 op = .ok (.ret (fieldX op)) := by
  simp [decodeClass0, h]

section
variable {s : State}

theorem exec_call_of_lt (h : s.sp.val < 16) (nnn : Addr) :
    exec (.call nnn) s = .next ((s.pushPc h).setPc (addrOperand nnn)) :=
  congrArg _ (dif_neg h.ne)

theorem exec_ret_of_pos (h : 0 < s.sp.val) (x : Nibble) : exec (.ret x) s = .next (s.popPc h) :=
  congrArg _ (dif_neg h.ne')

theorem State.popPc_pc_of_sp_eq (h : 0 < s.sp.val) {k : Fin 16} (hk : s.sp.val = k.val + 1) :
    (s.popPc h).pc = s.stack[k.val] := by
  simp only [State.popPc_pc, hk, Nat.add_sub_cancel]

end

/-- Settles O23: below the full stack CALL is `State.pushPc`, then the jump. -/
theorem callPushesTheReturnAddress : Obligations.CallPushesTheReturnAddress := by
  refine ⟨selects_of_fieldClass fun _ => decode_of_fieldClass_2,
    fun nnn s hsp => ⟨_, exec_call_of_lt hsp nnn, rfl, rfl, fun k => ?_, rfl⟩⟩
  simp only [State.setPc_stack, s.pushPc_stack hsp k, eq_comm]

/-- Settles O24: above the empty stack RET is `State.popPc`. -/
theorem returnPopsTheReturnAddress : Obligations.ReturnPopsTheReturnAddress := by
  refine ⟨selects_of_fieldNN fun _ hclass hnn => (decode_of_fieldClass_0 hclass).trans (decodeClass0_of_fieldNN_EE hnn),
    fun x s k hk => ?_⟩
  have hpos : 0 < s.sp.val := by omega
  refine ⟨s.popPc hpos, exec_ret_of_pos hpos x, ?_, State.popPc_pc_of_sp_eq hpos hk, rfl⟩
  rw [State.popPc_sp, hk, Nat.add_sub_cancel]

/-- Settles O25: the entry that the return pops is the one the call pushed, which holds the call's PC. -/
theorem returnUndoesCall : Obligations.ReturnUndoesCall := by
  intro nnn s k hk
  have hsp : s.sp.val < 16 := hk ▸ k.isLt
  refine ⟨_, exec_call_of_lt hsp nnn, fun x u husp hentry => ?_⟩
  have hu : u.sp.val = k.val + 1 := by rw [husp, State.setPc_sp, State.pushPc_sp, hk]
  have hpos : 0 < u.sp.val := by omega
  refine ⟨u.popPc hpos, exec_ret_of_pos hpos x, ?_, Fin.ext ?_⟩
  · rw [State.popPc_pc_of_sp_eq hpos hu, hentry]
    simp only [State.setPc_stack, s.pushPc_stack hsp k, if_pos hk]
  · rw [State.popPc_sp, hu, hk, Nat.add_sub_cancel]

end Sys2Proof.Machine
end

section
/-! The key skips (42_skips.md R145, R146) and the key wait (46_timers_keys.md R253 to R255). -/

namespace Sys2Proof.Machine

theorem decode_of_fieldClass_E {op : Word} (h : fieldClass op = 0xE) : decode op = decodeClassE op := by
  simp [decode, h]

theorem decodeClassE_of_fieldNN_9E {op : Word} (h : fieldNN op = 0x9E) :
    decodeClassE op = .ok (.skp (fieldX op)) := by
  simp [decodeClassE, h]

theorem decodeClassE_of_fieldNN_A1 {op : Word} (h : fieldNN op = 0xA1) :
    decodeClassE op = .ok (.sknp (fieldX op)) := by
  simp [decodeClassE, h]

theorem decodeClassF_of_fieldNN_0A {op : Word} (h : fieldNN op = 0x0A) :
    decodeClassF op = .ok (.ldVxK (fieldX op)) := by
  simp [decodeClassF, h]

section
variable {s : State} {x : Nibble}

/-- A register below 16 names the key of its value. -/
theorem State.keyDown_getV {k : Fin 16} (h : (s.getV x).toNat = k.val) :
    s.keyDown ((s.getV x).setWidth 4) = s.keys[k.val] := by
  have hk : ((s.getV x).setWidth 4).toNat = k.val := by
    rw [BitVec.toNat_setWidth, h]
    exact Nat.mod_eq_of_lt k.isLt
  simp only [State.keyDown, hk]

theorem exec_skp_of_key {k : Fin 16} (h : (s.getV x).toNat = k.val) :
    exec (.skp x) s = .next { s with pc := if s.keys[k.val] then s.pc + 2 else s.pc } := by
  rcases execSkp_cases s x with ⟨-, e⟩ | ⟨hout, -⟩
  · rw [State.keyDown_getV h] at e
    exact e
  · omega

theorem exec_sknp_of_key {k : Fin 16} (h : (s.getV x).toNat = k.val) :
    exec (.sknp x) s = .next { s with pc := if s.keys[k.val] then s.pc else s.pc + 2 } := by
  rcases execSknp_cases s x with ⟨-, e⟩ | ⟨hout, -⟩
  · rw [State.keyDown_getV h] at e
    exact e
  · omega

/-! ### The key wait -/

theorem keyIndexByte_ofFin (k : Fin 16) : keyIndexByte (BitVec.ofFin k) = BitVec.ofNat 8 k.val :=
  BitVec.eq_of_toNat_eq (by simp [keyIndexByte])

theorem State.lowestKey_eq_none_of_keys (h : ∀ k : Fin 16, s.keys[k.val] = false) : s.lowestKey = none :=
  s.lowestKey_eq_none.mpr fun k => h k.toFin

theorem State.lowestKey_eq_some_of_keys {k : Fin 16} (hk : s.keys[k.val] = true)
    (hlow : ∀ j : Fin 16, j.val < k.val → s.keys[j.val] = false) : s.lowestKey = some (BitVec.ofFin k) :=
  (s.lowestKey_eq_some _).mpr ⟨hk, fun j hj => hlow j.toFin hj⟩

theorem exec_ldVxK_of_lowestKey_none (h : s.lowestKey = none) : exec (.ldVxK x) s = .next (s.setPc (s.pc - 2)) := by
  rw [exec, execLdVxK, h]

theorem exec_ldVxK_of_lowestKey_some {k : Nibble} (h : s.lowestKey = some k) :
    exec (.ldVxK x) s = .next (s.setV x (keyIndexByte k)) := by
  rw [exec, execLdVxK, h]

end

/-- Settles O28: V[x] is below 16, so neither raises KEY_RANGE, and PC moves on the key or on its absence. -/
theorem keySkipsSkip : Obligations.KeySkipsSkip := by
  refine ⟨⟨?_, ?_⟩, fun s x k h => ⟨exec_skp_of_key h, exec_sknp_of_key h⟩⟩
  · exact selects_of_fieldNN fun _ hc hnn => (decode_of_fieldClass_E hc).trans (decodeClassE_of_fieldNN_9E hnn)
  · exact selects_of_fieldNN fun _ hc hnn => (decode_of_fieldClass_E hc).trans (decodeClassE_of_fieldNN_A1 hnn)

/-- Settles O47: the wait goes by `State.lowestKey`; where it rewinds, it takes back the step's own advance of PC. -/
theorem keyWaitRewindsOrTakesTheLowestKey : Obligations.KeyWaitRewindsOrTakesTheLowestKey := by
  refine ⟨selects_of_fieldNN_classF rfl fun _ => decodeClassF_of_fieldNN_0A, fun s x => ⟨fun hno => ?_, ?_, ?_⟩⟩
  · exact exec_ldVxK_of_lowestKey_none (State.lowestKey_eq_none_of_keys hno)
  · intro k hk hlow
    rw [exec_ldVxK_of_lowestKey_some (State.lowestKey_eq_some_of_keys hk hlow), keyIndexByte_ofFin]
  · intro hrun hpc hi hno
    have hkeys : s.beginInstr.lowestKey = none := State.lowestKey_eq_none_of_keys hno
    have hback : s.beginInstr.pc - 2 = s.pc := BitVec.add_sub_cancel s.pc 2
    rw [step_eq_runWord hrun hpc, runWord_of_decode_eq_ok hi, exec_ldVxK_of_lowestKey_none hkeys, hback]
    rfl

end Sys2Proof.Machine
end

section
/-! The flag group register by register (43_alu.md R167, R175; decision D3): V[x] and VF after it, as naturals. -/

namespace Sys2Proof.Machine

/-! ### The values and the flags as naturals -/

section
variable (v w : Byte)

theorem toNat_byte_sub : (v - w).toNat = (v.toNat + 256 - w.toNat) % 256 := by
  rw [byte_sub_eq_ofNat, BitVec.toNat_ofNat, Nat.mod_mod]

theorem toNat_byte_ushiftRight_one : (v >>> 1).toNat = v.toNat / 2 := by
  rw [BitVec.toNat_ushiftRight, Nat.shiftRight_eq_div_pow, pow_one]

theorem toNat_byte_shiftLeft_one : (v <<< 1).toNat = 2 * v.toNat % 256 := by
  rw [byte_shiftLeft_one_eq_ofNat, BitVec.toNat_ofNat, Nat.mod_mod, Nat.mul_comm]

theorem toNat_carryFlag : (carryFlag v w).toNat = if v.toNat + w.toNat > 255 then 1 else 0 := by
  rw [carryFlag_eq]
  split <;> rfl

theorem toNat_noBorrowFlag : (noBorrowFlag v w).toNat = if v.toNat ≥ w.toNat then 1 else 0 := by
  rw [noBorrowFlag_eq]
  split <;> rfl

theorem toNat_lowBitFlag : (lowBitFlag v).toNat = v.toNat % 2 := by
  rw [lowBitFlag_eq, BitVec.toNat_ofNat]
  omega

theorem toNat_highBitFlag : (highBitFlag v).toNat = v.toNat / 128 := by
  rw [highBitFlag_eq, BitVec.toNat_ofNat]
  omega

end

theorem State.getV_self_flagThenValue (s : State) (x : Nibble) (flag : Byte) (value : State → Byte) :
    (s.flagThenValue x flag value).getV x = value (s.setV 0xF flag) :=
  State.getV_setV_self _ _ _

/-- Settles O33: the write of VF touches neither operand, and the write of V[x] not VF. -/
theorem flagGroupAwayFromVF : Obligations.FlagGroupAwayFromVF := by
  intro s x y v w hx hy hv hw
  have hgx (f : Byte) : (s.setV 0xF f).getV x = s.getV x := s.getV_setV_ne hx.symm f
  have hgy (f : Byte) : (s.setV 0xF f).getV y = s.getV y := s.getV_setV_ne hy.symm f
  refine ⟨_, _, _, _, _, exec_addReg s x y, ?_, ?_, exec_sub s x y, ?_, ?_, exec_shr s x y, ?_, ?_, exec_subn s x y,
    ?_, ?_, exec_shl s x y, ?_, ?_⟩
  · rw [State.getV_self_flagThenValue, BitVec.toNat_add, hv, hw]
  · rw [s.getV_F_flagThenValue hx, toNat_carryFlag, ← hv, ← hw]
    split <;> omega
  · rw [State.getV_self_flagThenValue, hgx, hgy, toNat_byte_sub, hv, hw]
  · rw [s.getV_F_flagThenValue hx, toNat_noBorrowFlag, ← hv, ← hw]
    simp only [ge_iff_le, ← Nat.not_lt, ite_not]
  · rw [State.getV_self_flagThenValue, hgx, toNat_byte_ushiftRight_one, hv]
  · rw [s.getV_F_flagThenValue hx, toNat_lowBitFlag, hv]
  · rw [State.getV_self_flagThenValue, hgx, hgy, toNat_byte_sub, hv, hw]
  · rw [s.getV_F_flagThenValue hx, toNat_noBorrowFlag, ← hv, ← hw]
    simp only [ge_iff_le, ← Nat.not_lt, ite_not]
  · rw [State.getV_self_flagThenValue, hgx, toNat_byte_shiftLeft_one, hv]
  · rw [s.getV_F_flagThenValue hx, toNat_highBitFlag, hv]

/-- Settles O34: an operand 0xF is read as the flag just written (but by ADD, whose sum is of the operands as they
were), and a destination 0xF keeps the value. -/
theorem flagGroupOnVFFollowsTheTable : Obligations.FlagGroupOnVFFollowsTheTable := by
  intro s x y v w f hx hy hv hw hf
  have hgx (b : Byte) : (s.setV 0xF b).getV x = s.getV x := s.getV_setV_ne hx.symm b
  have hgy (b : Byte) : (s.setV 0xF b).getV y = s.getV y := s.getV_setV_ne hy.symm b
  have hgF (b : Byte) : (s.setV 0xF b).getV 0xF = b := s.getV_setV_self 0xF b
  refine ⟨⟨_, exec_addReg s 0xF y, ?_⟩, ⟨_, exec_addReg s x 0xF, ?_, ?_⟩, ⟨_, exec_addReg s 0xF 0xF, ?_⟩,
    ⟨_, exec_sub s 0xF y, ?_⟩, ⟨_, exec_sub s x 0xF, ?_, ?_⟩, ⟨_, exec_sub s 0xF 0xF, ?_⟩,
    ⟨_, exec_subn s 0xF y, ?_⟩, ⟨_, exec_subn s x 0xF, ?_, ?_⟩, ⟨_, exec_subn s 0xF 0xF, ?_⟩,
    ⟨_, exec_shr s 0xF y, ?_⟩, ⟨_, exec_shl s 0xF y, ?_⟩⟩
  · rw [State.getV_self_flagThenValue, BitVec.toNat_add, hf, hw]
  · rw [State.getV_self_flagThenValue, BitVec.toNat_add, hv, hf]
  · rw [s.getV_F_flagThenValue hx, toNat_carryFlag, hv, hf]
  · rw [State.getV_self_flagThenValue, BitVec.toNat_add, hf, Nat.two_mul]
  · rw [State.getV_self_flagThenValue, hgF, hgy, toNat_byte_sub, toNat_noBorrowFlag, hf, hw]
  · rw [State.getV_self_flagThenValue, hgF, hgx, toNat_byte_sub, toNat_noBorrowFlag, hv, hf]
  · rw [s.getV_F_flagThenValue hx, toNat_noBorrowFlag, hv, hf]
  · rw [State.getV_self_flagThenValue, BitVec.sub_self, BitVec.toNat_zero]
  · rw [State.getV_self_flagThenValue, hgF, hgy, toNat_byte_sub, toNat_noBorrowFlag, hf, hw]
  · rw [State.getV_self_flagThenValue, hgF, hgx, toNat_byte_sub, toNat_noBorrowFlag, hv, hf]
  · rw [s.getV_F_flagThenValue hx, toNat_noBorrowFlag, hv, hf]
  · rw [State.getV_self_flagThenValue, BitVec.sub_self, BitVec.toNat_zero]
  · rw [State.getV_self_flagThenValue, hgF, toNat_byte_ushiftRight_one, toNat_lowBitFlag]
    omega
  · rw [State.getV_self_flagThenValue, hgF, toNat_byte_shiftLeft_one, toNat_highBitFlag, hf]
    omega

end Sys2Proof.Machine
end

section
/-! The random byte (43_alu.md R176) and the index addition (44_index_memory.md R201). -/

namespace Sys2Proof.Machine

theorem decode_of_fieldClass_C {op : Word} (h : fieldClass op = 0xC) :
    decode op = .ok (.rnd (fieldX op) (fieldNN op)) := by
  simp [decode, h]

theorem decodeClassF_of_fieldNN_1E {op : Word} (h : fieldNN op = 0x1E) :
    decodeClassF op = .ok (.addIVx (fieldX op)) := by
  simp [decodeClassF, h]

theorem exec_rnd (x : Nibble) (nn : Byte) (s : State) :
    exec (.rnd x nn) s = .next ((s.setV x (Config.rnd s.draws &&& nn)).setDraws (s.draws + 1)) := rfl

theorem exec_addIVx (x : Nibble) (s : State) :
    exec (.addIVx x) s = .next (s.setIdx (s.idx + zext16 (s.getV x))) := rfl

theorem word_add_zext16_eq_ofNat (w : Word) (b : Byte) :
    w + zext16 b = BitVec.ofNat 16 ((w.toNat + b.toNat) % 65536) := by
  rw [zext16]
  bv_omega

/-- Settles O35: the byte is the draw that is due, `Config.rnd` at the count of draws. -/
theorem randomByteIsMasked : Obligations.RandomByteIsMasked :=
  ⟨selects_of_fieldClass fun _ => decode_of_fieldClass_C, fun s x nn => ⟨_, rfl, exec_rnd x nn s⟩⟩

/-- Settles O37: the sum is one of 16-bit words, so it wraps. -/
theorem indexAddWrapsAtSixteenBits : Obligations.IndexAddWrapsAtSixteenBits := by
  refine ⟨selects_of_fieldNN_classF rfl fun _ => decodeClassF_of_fieldNN_1E, fun s x => ?_⟩
  rw [exec_addIVx, word_add_zext16_eq_ofNat]
  rfl

end Sys2Proof.Machine
end

section
/-! The bulk moves where they complete (44_index_memory.md R205 to R208). -/

namespace Sys2Proof.Machine

theorem decodeClassF_of_fieldNN_55 {op : Word} (h : fieldNN op = 0x55) :
    decodeClassF op = .ok (.ldMemVx (fieldX op)) := by
  simp [decodeClassF, h]

theorem decodeClassF_of_fieldNN_65 {op : Word} (h : fieldNN op = 0x65) :
    decodeClassF op = .ok (.ldVxMem (fieldX op)) := by
  simp [decodeClassF, h]

section
variable {s : State} {x : Nibble}

theorem exec_ldMemVx_of_lt (h : s.dataAddr x.toNat < 4096) : exec (.ldMemVx x) s =
    .next ((s.setMem (s.mem.writeBytes (s.dataAddr 0) (s.regsUpTo x))).setIdx (s.idxPast x)) :=
  congrArg _ (s.checkRange_pos h _ _)

theorem exec_ldVxMem_of_lt (h : s.dataAddr x.toNat < 4096) : exec (.ldVxMem x) s =
    .next ((s.loadRegs 0 (s.mem.readBytes (s.dataAddr 0) (x.toNat + 1))).setIdx (s.idxPast x)) :=
  congrArg _ (s.checkRange_pos h _ _)

/-- An address of the run stored reads as its register. -/
theorem State.read_writeBytes_regsUpTo (hmem : Memory.wf s.mem) (h : s.dataAddr x.toNat < 4096) {k : Nibble}
    (hk : k.toNat ≤ x.toNat) :
    (s.mem.writeBytes (s.dataAddr 0) (s.regsUpTo x)).read (s.dataAddr k.toNat) = s.getV k := by
  have hlen := s.length_regsUpTo x
  simp only [State.dataAddr] at h ⊢
  rw [Memory.read_writeBytes hmem (by simp only [hlen, Config.memSize]; omega), if_pos (by omega), Nat.add_zero,
    Nat.add_sub_cancel_left, s.getD_regsUpTo x k hk]

/-- A register of the run loaded holds the byte at its address; the registers above hold what they held. -/
theorem State.getV_loadRegs_readBytes (s : State) (x k : Nibble) :
    (s.loadRegs 0 (s.mem.readBytes (s.dataAddr 0) (x.toNat + 1))).getV k =
      if k.toNat ≤ x.toNat then s.mem.read (s.dataAddr k.toNat) else s.getV k := by
  split
  case isTrue hk =>
    rw [State.getV_loadRegs _ _ _ (by rw [Memory.length_readBytes]; omega), Memory.length_readBytes, if_pos (by omega),
      Memory.getD_readBytes _ _ _ _ (by omega)]
    rfl
  case isFalse hk => exact s.getV_loadRegs_above (Nat.not_le.mp hk) _

end

/-- Settles O39: in range Fx55 is one write of the run of registers, and I past it. -/
theorem bulkStoreWritesTheRun : Obligations.BulkStoreWritesTheRun := by
  refine ⟨selects_of_fieldNN_classF rfl fun _ => decodeClassF_of_fieldNN_55, fun s x hmem hrange =>
    ⟨_, exec_ldMemVx_of_lt hrange, rfl, rfl, fun k hk => State.read_writeBytes_regsUpTo hmem hrange hk, fun a ha => ?_⟩⟩
  refine read_of_exec hmem (exec_ldMemVx_of_lt hrange) ?_
  rw [State.storedBytes, State.length_regsUpTo]
  exact ha

/-- Settles O40: in range Fx65 is one load of the run of bytes, and I past it. -/
theorem bulkLoadReadsTheRun : Obligations.BulkLoadReadsTheRun := by
  refine ⟨selects_of_fieldNN_classF rfl fun _ => decodeClassF_of_fieldNN_65, fun s x hrange =>
    ⟨_, exec_ldVxMem_of_lt hrange, ?_, rfl, s.getV_loadRegs_readBytes x⟩⟩
  exact congrArg (State.setIdx · (s.idxPast x)) (s.loadRegs_frame _ _)

end Sys2Proof.Machine
end

section
/-! One draw (45_display.md R232 to R238): the cells it toggles, its flag, and that its cells are distinct. -/

namespace Sys2Proof.Machine

theorem decode_of_fieldClass_D {op : Word} (h : fieldClass op = 0xD) :
    decode op = .ok (.drw (fieldX op) (fieldY op) (fieldN op)) := by
  simp [decode, h]

/-- Settles O43: in range the draw is `State.drawSprite` of the rows at I, whose cells are distinct and are those that
`State.spriteCovers` names. -/
theorem drawTogglesTheSpritesCells : Obligations.DrawTogglesTheSpritesCells := by
  refine ⟨selects_of_fieldClass fun _ => decode_of_fieldClass_D, fun s x y n hrange => ?_⟩
  have hexec := exec_drw_of_inRange s (x := x) (y := y) hrange
  generalize (s.getV x).toNat = X, (s.getV y).toNat = Y at hexec ⊢
  have hnodup := s.nodup_spriteCells_spriteRows X Y n
  have hmem := s.mem_spriteCells_spriteRows X Y n
  refine ⟨_, hexec, s.drawSprite_frame _ _ _, fun p hp => ?_, fun p hp => ?_,
    (s.getV_F_drawSprite_eq_one_iff X Y n).mpr, (s.getV_F_drawSprite_eq_zero_iff X Y n).mpr,
    fun r hr => s.getV_drawSprite_ne _ _ _ hr⟩
  · rw [State.pixel_drawSprite s hnodup, if_pos ((hmem p).mpr hp)]
  · rw [State.pixel_drawSprite s hnodup, if_neg fun h => hp ((hmem p).mp h)]

/-- Settles O45: a sprite of at most 15 rows is no taller than the screen. -/
theorem spriteCellsAreDistinct : Obligations.SpriteCellsAreDistinct :=
  fun X Y _ h => nodup_spriteCells X Y (Nat.le_trans h (by decide))

end Sys2Proof.Machine
end

section
/-! The host's reads, load and reset (60_exceptions.md R314 to R319; 70_reset_and_hazards.md R340 to R344). -/

namespace Sys2Proof.Machine

section
variable (s : State)

theorem State.soundActive_eq : s.soundActive = decide (s.st.toNat ≠ 0) :=
  decide_eq_decide.mpr (not_congr BitVec.toNat_inj.symm)

theorem State.length_framebuffer : s.framebuffer.length = 2048 :=
  s.fb.length_toList

/-- The snapshot is row-major: column `x` of row `y` stands at `y * 64 + x`. -/
theorem State.getD_framebuffer {x y : Nat} (hx : x < 64) (hy : y < 32) :
    s.framebuffer.getD (y * 64 + x) 0 = s.pixel (fbCell x y) := by
  have hlt : y * 64 + x < s.framebuffer.length := by
    rw [State.length_framebuffer]
    omega
  rw [List.getD_eq_getElem _ _ hlt]
  simp [State.framebuffer, State.pixel, fbCell, Nat.mod_eq_of_lt hx, Nat.mod_eq_of_lt hy]

theorem State.load_of_fits {image : List Byte} (h : image.length ≤ 3584) :
    s.load image = s.setMem (s.mem.writeBytes Config.progBase image) :=
  if_pos ((imageFits_iff image).mpr h)

theorem hostOp_load_of_fits {image : List Byte} (h : image.length ≤ 3584) :
    hostOp (.load image) s = .next (s.load image, .nothing) := by
  rw [hostOp, if_pos ((imageFits_iff image).mpr h)]

theorem hostOp_load_of_oversized {image : List Byte} (h : 3584 < image.length) :
    hostOp (.load image) s = .next (s, .oversizedImage) := by
  have hfits : ¬ imageFits image = true := by simp [(not_imageFits_iff image).mpr h]
  rw [hostOp, State.load, if_neg hfits, if_neg hfits]

/-- The font, glyph by glyph, is one list of 80 bytes (R54). -/
theorem Memory.unlisted_eq (a : Nat) : Memory.unlisted a = if a < 80 then fontGlyphs.flatten.getD a 0 else 0 := by
  have hfont : ∀ a : Fin 80, (fontGlyphs.getD (a.val / 5) []).getD (a.val % 5) 0 = fontGlyphs.flatten.getD a.val 0 := by
    decide
  rw [Memory.unlisted]
  split
  case isTrue h => exact hfont ⟨a, h⟩
  case isFalse => rfl

end

/-- Settles O53: the reads answer the state itself; the snapshot is the framebuffer's own order. -/
theorem hostReadsChangeNothing : Obligations.HostReadsChangeNothing := by
  refine fun s => ⟨?_, rfl, s.framebuffer, rfl, s.length_framebuffer, fun x y hx hy => s.getD_framebuffer hx hy⟩
  rw [hostOp, State.soundActive_eq]

/-- Settles O54: a load that fits is one run of bytes from 0x200, which ends at 4096 at the latest. -/
theorem loadPlacesTheImage : Obligations.LoadPlacesTheImage := by
  refine fun s image hmem => ⟨fun hfits => ?_, hostOp_load_of_oversized s⟩
  have hend : Config.progBase + image.length ≤ Config.memSize := by
    simp only [Config.progBase, Config.memSize]
    omega
  refine ⟨_, hostOp_load_of_fits s hfits, s.load_frame image, fun a => ?_⟩
  rw [s.load_of_fits hfits]
  exact Memory.read_writeBytes hmem hend a

/-- Settles O55: `State.restart` is the reset state but for the count of draws; its memory lists nothing, so every
address reads as unlisted. -/
theorem resetLeavesTheResetState : Obligations.ResetLeavesTheResetState := by
  refine fun s => ⟨s.restart, rfl, rfl, rfl, rfl, rfl, rfl, fun x => ?_, fun k => ?_, fun k => ?_, fun p => ?_,
    Memory.unlisted_eq, rfl, rfl, rfl, rfl⟩
  · simp [State.restart, State.reset, State.getV, State.setDraws]
  · simp [State.restart, State.reset]
  · simp [State.restart, State.reset]
  · simp [State.restart, State.reset, State.pixel, State.setDraws]

end Sys2Proof.Machine
end
